-- ==== Sys2Proof/Word.lean ====
section
/-! DEFINITION. The two widths the block handles (00_scope.md R7, R8; 20_memory.md R45): bytes and words, both
unsigned. Byte order (`hi`, `lo`, `wordOf`) is in Decode.lean. -/

namespace Sys2Proof

/-- A byte: 8 bits, unsigned (R8). -/
abbrev Byte := BitVec 8

/-- A word: 16 bits, unsigned (R7 `WORD_WIDTH`). -/
abbrev Word := BitVec 16

end Sys2Proof
end

