-- ==== Sys2Proof/Config.lean ====
section
/-! DEFINITION. What is fixed for the machine: the hardwired constants of 00_scope.md R7 and 10_state.md R28, the
implementation parameters R7 leaves OPEN, and the free values of the model (constants without a body). -/

namespace Sys2Proof

/-- `CRC_POLY`: 0x131 truncated to 8 bits (R7, R28). -/
abbrev Config.crcPoly : Byte := 0x31

/-- `CRC_INIT`: the effective initial CRC value (R7, R28; settled by 90_conflicts.md C1). -/
abbrev Config.crcInit : Byte := 0xFF

/-- `CRC_XOROUT`: no final XOR (R7, R28). -/
abbrev Config.crcXorOut : Byte := 0x00

/-- `LUT_ENTRIES` (R7). -/
abbrev Config.lutEntries : Nat := 256

/-- `GROUP_BYTES` (R7). -/
abbrev Config.groupBytes : Nat := 3

/-- The parameters that R7 leaves OPEN and that a response can depend on. They are fixed for a machine: no step
changes them. State carries them so that a statement about every state is a statement about every value of them
(log entry 2). `LAT_BUILD` and `LAT_OP` are left out: R163 asks a model to carry no time (log entry 9). -/
structure Config.Params where
  /-- `NMAX`: the most groups one DECODE_WORDS may ask for, 6..85 (R7, R109). -/
  nmax : Nat
  deriving DecidableEq, Repr

/-- The default R7 gives: `NMAX = 6`. -/
def Config.Params.default : Config.Params := { nmax := 6 }

/-- The range R7 gives: `NMAX` is any integer 6..85. -/
abbrev Config.Params.ok (p : Config.Params) : Prop := 6 ≤ p.nmax ∧ p.nmax ≤ 85

/-- FREE VALUE: what LUT entry `i` holds when nothing has written it since the `epoch`-th reset (R24, R150: the
contents are unspecified; 93_implementation_defined.md I1: any value). Log entry 1. -/
opaque Config.unbuiltEntry : (epoch : Nat) → (i : Byte) → Byte

/-- FREE VALUE: the port's choice among several waiting requesters at its `grant`-th acceptance (60_exceptions.md
R144: an order the block does not define; I6: every order is admitted). Log entry 5. -/
opaque Config.arbiter : (grant : Nat) → Nat

end Sys2Proof
end

