-- ==== Sys2Proof/Syntax.lean ====
section
/-! DEFINITION. The seven operations of 30_encoding.md R65 (one per row of spec/opcode_table.json) and the request
formats of R62. -/

namespace Sys2Proof

/-- The operations, with the operands R62 and R68 give them. A request that names none of them, or whose length does
not fit its format, is no `Instr`: it is answered with ILLEGAL_OPERATION before any operation is selected (R66, R67). -/
inductive Instr where
  /-- BUILD (40_crc8_engine.md R84). -/
  | build
  /-- CHECKSUM W (R86). -/
  | checksum (w : Word)
  /-- VALIDATE HIGH, LOW, CRC (R88). -/
  | validate (high low crc : Byte)
  /-- ENCODE_WRITE CMD, DATA (41_frame_codec.md R101). -/
  | encodeWrite (cmd data : Word)
  /-- ENCODE_READ CMD (R103). -/
  | encodeRead (cmd : Word)
  /-- DECODE_WORD B0, B1, B2 (R106). -/
  | decodeWord (b0 b1 b2 : Byte)
  /-- DECODE_WORDS N, [R...] (R108): the expected group count and the bytes the transport returned; `L` is their
  number. -/
  | decodeWords (n : Byte) (r : List Byte)
  deriving DecidableEq, Repr

/-- The request formats of R62. -/
inductive Format where
  | f0 | f2 | f3 | f4 | fv
  deriving DecidableEq, Repr

end Sys2Proof
end

