-- ==== Sys2Proof/WellFormed.lean ====
section
/-! DEFINITION. Which instruction terms a request can carry (30_encoding.md R62, R68), and which operand values are
legal (R69). -/

namespace Sys2Proof

/-- A term is well-formed when a request can carry it: the byte count of DECODE_WORDS has 8 bits (R68: `L = req[2]` is
an unsigned 8-bit count). Every other field is as wide as its type. -/
def Instr.wf : Instr → Bool
  | .build => true
  | .checksum _ => true
  | .validate _ _ _ => true
  | .encodeWrite _ _ => true
  | .encodeRead _ => true
  | .decodeWord _ _ _ => true
  | .decodeWords _ r => r.length ≤ 255

/-- R69: every operand value is legal except `N` of DECODE_WORDS, which must satisfy `1 <= N <= NMAX`. A well-formed
request with an illegal `N` still runs: it is answered with ILLEGAL_OPERATION (R109). -/
def Instr.legal (p : Config.Params) : Instr → Bool
  | .build => true
  | .checksum _ => true
  | .validate _ _ _ => true
  | .encodeWrite _ _ => true
  | .encodeRead _ => true
  | .decodeWord _ _ _ => true
  | .decodeWords n _ => 1 ≤ n.toNat && n.toNat ≤ p.nmax

end Sys2Proof
end

