-- ==== Sys2Proof/Decode.lean ====
section
/-! DEFINITION. Byte order (00_scope.md R8, 20_memory.md R42), the operation map and formats (30_encoding.md R62,
R65), the decoder, total on every byte sequence, and the encoder. -/

namespace Sys2Proof

/-- `hi(w) = w[15:8]` (R8). -/
def hi (w : Word) : Byte := w.extractLsb' 8 8

/-- `lo(w) = w[7:0]` (R8). -/
def lo (w : Word) : Byte := w.extractLsb' 0 8

/-- `word(h, l) = (zext_16(h) << 8) | zext_16(l)` (R8): the high byte comes first (R42). -/
def wordOf (h l : Byte) : Word := (h.setWidth 16 <<< 8) ||| l.setWidth 16

/-- A word in wire order, most significant byte first (R42, R44). -/
def wordBytes (w : Word) : List Byte := [hi w, lo w]

/-- The operation map of R65: the format that belongs to an operation code; none for a reserved one (R66). -/
def formatOf (op : Byte) : Option Format :=
  match op.toNat with
  | 1 => some .f0
  | 2 => some .f2
  | 3 => some .f3
  | 4 => some .f4
  | 5 => some .f2
  | 6 => some .f3
  | 7 => some .fv
  | _ => none

/-- The length of a request of a format (R62, R67, R70); for `FV` it depends on the byte `L = req[2]`. -/
def formatLength (f : Format) (l : Byte) : Nat :=
  match f with
  | .f0 => 1
  | .f2 => 3
  | .f3 => 4
  | .f4 => 5
  | .fv => 3 + l.toNat

/-- Operand assembly (R68) for an operation code and the bytes after it; none where the code is reserved (R66) or the
byte count is not the format's (R67). -/
def decodeOperands : Nat → List Byte → Option Instr
  | 1, [] => some .build
  | 2, [a, b] => some (.checksum (wordOf a b))
  | 3, [a, b, c] => some (.validate a b c)
  | 4, [a, b, c, d] => some (.encodeWrite (wordOf a b) (wordOf c d))
  | 5, [a, b] => some (.encodeRead (wordOf a b))
  | 6, [a, b, c] => some (.decodeWord a b c)
  | 7, n :: l :: r => if r.length = l.toNat then some (.decodeWords n r) else none
  | _, _ => none

/-- The decoder (R61): `req[0]` selects the operation. An empty request has no operation code (R66). -/
def decode : List Byte → Option Instr
  | [] => none
  | op :: operands => decodeOperands op.toNat operands

/-- The encoder, from the formats of R62 and the codes of R65. -/
def encode : Instr → List Byte
  | .build => [0x01]
  | .checksum w => 0x02 :: wordBytes w
  | .validate h l c => [0x03, h, l, c]
  | .encodeWrite cmd data => 0x04 :: (wordBytes cmd ++ wordBytes data)
  | .encodeRead cmd => 0x05 :: wordBytes cmd
  | .decodeWord b0 b1 b2 => [0x06, b0, b1, b2]
  | .decodeWords n r => 0x07 :: n :: BitVec.ofNat 8 r.length :: r

/-- Byte `k` of an instruction whose bits are `w`, the first byte least significant (the numbering of
spec/opcode_table.json). -/
def tableByte (w k : Nat) : Byte := BitVec.ofNat 8 (w >>> (8 * k))

/-- The request an opcode-table word stands for: as many bytes as its format has (R70), or as `nbits` has where that is
more, every bit above `nbits` zero (log entry 11). -/
def tableBytes (nbits w : Nat) : List Byte :=
  let v := w % 2 ^ nbits
  let own := match formatOf (tableByte v 0) with
    | some f => formatLength f (tableByte v 2)
    | none => 1
  (List.range (max ((nbits + 7) / 8) own)).map (tableByte v)

/-- What the decoder reads from an opcode-table word. -/
def decodeTableWord (nbits w : Nat) : Option Instr := decode (tableBytes nbits w)

end Sys2Proof
end

