-- ==== Sys2Proof/Machine/State.lean ====
section
/-! DEFINITION. The state of the block (10_state.md R20): the table, `T_VALID` and `BUSY`; with them what stands at its
boundary (the request port, the delivered responses, the reset input), the OPEN parameter, and the counters that the
free values are applied to. -/

namespace Sys2Proof.Machine

/-- A request at the port: a finite byte sequence with its length (30_encoding.md R60). `requester` says which agent
presented it, so that each gets the response to its own request (60_exceptions.md R144); the block has no such
identifier, and no operation reads it (log entry 5). -/
structure Request where
  requester : Nat
  bytes : List Byte
  deriving DecidableEq, Repr

/-- A delivered response (R63) with the request it answers (R134: the response names the request); `none` only where an
operation ran with no request in flight, which no run reaches (log entry 12). -/
structure Response where
  answers : Option Request
  bytes : List Byte
  deriving DecidableEq, Repr

/-- The block's one memory, `LUT` (20_memory.md R40), as the entries written since the last reset, by index. An entry
that is not listed has not been written: it reads as a free value (log entry 1). -/
abbrev Memory := List Host.Cell

/-- No instruction and no step stops the machine with a fault: every error of the block is a response (60_exceptions.md
R130, R134), and every LUT index exists (20_memory.md R49). The type is empty (log entry 13). -/
inductive Fault where
  deriving DecidableEq, Repr

/-- Why a step has no meaning. -/
inductive Refusal where
  /-- An instruction the model gives no meaning, by its mnemonic. No arm of `exec` raises it. Safe. -/
  | notModelled (mnemonic : String)
  deriving DecidableEq, Repr

structure State where
  /-- `LUT[0..255]` (R20, R23). -/
  lut : Memory
  /-- `T_VALID` (R20, R25). -/
  tValid : Bool
  /-- `BUSY` (R20, R27). -/
  busy : Bool
  /-- The accepted request, from its acceptance until its response is delivered (R27, R60). -/
  inFlight : Option Request
  /-- The requests presented and not yet accepted, oldest first (R60: held, never dropped). -/
  held : List Request
  /-- The responses delivered so far, oldest first: the observation of a run (70_reset_and_hazards.md R164). -/
  responses : List Response
  /-- The reset input (R150): asserted, and not yet seen by a step (log entry 6). -/
  resetIn : Bool
  /-- The OPEN parameter `NMAX` (R7); no step changes it (log entry 2). -/
  params : Config.Params
  /-- The model's own: how many resets there have been, which the free table contents are applied to (log entry 1). -/
  lutEpoch : Nat
  /-- The model's own: how many requests were accepted, which the free arbitration is applied to (log entry 5). -/
  grants : Nat
  deriving DecidableEq, Repr

/-- What a meaning and a step answer. -/
abbrev Result := Host.Outcome State Fault Refusal

/-- The machine right after reset (70_reset_and_hazards.md R150, R152): no table, not busy, an empty port, waiting for
the first request. `NMAX` is R7's default. -/
def State.reset : State where
  lut := []
  tValid := false
  busy := false
  inFlight := none
  held := []
  responses := []
  resetIn := false
  params := Config.Params.default
  lutEpoch := 0
  grants := 0

end Sys2Proof.Machine
end

