-- ==== Sys2Proof/Machine/Flags.lean ====
section
/-! DEFINITION. The block's only condition indication, the response's status byte (10_state.md R29; 30_encoding.md R63,
R64), and the errors with their info (60_exceptions.md R131). -/

namespace Sys2Proof.Machine

/-- The errors the block reports (R131), with the info each carries. -/
inductive BlockError where
  /-- CHECKSUM_FAILURE: the 0-based index of the first failing group. -/
  | checksumFailure (index : Byte)
  /-- MALFORMED_RESPONSE: no info. -/
  | malformedResponse
  /-- ILLEGAL_OPERATION: no info. -/
  | illegalOperation
  deriving DecidableEq, Repr

/-- `ST = OK` (R64). -/
def statusOk : Byte := 0x00

/-- The status code of an error (R64, R131). -/
def errorCode : BlockError → Byte
  | .checksumFailure _ => 0x01
  | .malformedResponse => 0x02
  | .illegalOperation => 0x03

/-- The bytes that follow an error's status (R131). -/
def errorInfo : BlockError → List Byte
  | .checksumFailure k => [k]
  | .malformedResponse => []
  | .illegalOperation => []

/-- `raise E(info)` delivers `[code(E)] ++ info` (R131, 00_scope.md R9). -/
def errorBytes (e : BlockError) : List Byte := errorCode e :: errorInfo e

/-- A successful response: `OK`, then the result (R63). -/
def okBytes (result : List Byte) : List Byte := statusOk :: result

/-- The result byte of VALIDATE (R63): 0x01 for true, 0x00 for false. -/
def boolByte (b : Bool) : Byte := if b then 0x01 else 0x00

end Sys2Proof.Machine
end

