-- ==== Sys2Proof/Machine/Ops.lean ====
section
/-! DEFINITION. The shared operations: the lookup table as memory (20_memory.md R40, R47), the CRC8 engine's functions
(40_crc8_engine.md R80 to R82), the delivery of a response and the raising of an error (00_scope.md R9,
60_exceptions.md R131, R134). There is no return from an error (R135). -/

namespace Sys2Proof.Machine

/-- The byte listed at an address; none where nothing is listed. -/
def Memory.read? : Memory → Nat → Option Byte
  | [], _ => none
  | (b, v) :: m, a => if a = b then some v else Memory.read? m a

/-- Write one byte, keeping the addresses strictly rising. -/
def Memory.write : Memory → Nat → Byte → Memory
  | [], a, v => [(a, v)]
  | (b, u) :: m, a, v =>
    if a < b then (a, v) :: (b, u) :: m
    else if a = b then (a, v) :: m
    else (b, u) :: Memory.write m a v

/-- The canonical form from an address bound on: addresses strictly rising, each at least the bound and an index of the
table (R40: 0x00..0xFF). -/
def Memory.wfFrom : Nat → Memory → Bool
  | _, [] => true
  | n, (b, _) :: m => n ≤ b && b < Config.lutEntries && Memory.wfFrom (b + 1) m

/-- The canonical form of the table's memory. What an unlisted address reads as is no fixed byte (log entry 1), so no
listed entry equals it. -/
def Memory.wf (m : Memory) : Bool := Memory.wfFrom 0 m

/-- `LUT[i]` (R9, R23). An entry that nothing has written since the last reset reads as a free value (R24, I1; log
entry 1); no run reads one, because every reader builds first (R81). -/
def lutRead (s : State) (i : Byte) : Byte :=
  match Memory.read? s.lut i.toNat with
  | some v => v
  | none => Config.unbuiltEntry s.lutEpoch i

/-- One bit-shift of R80: bit 7 is tested before the shift, the polynomial is applied after it. -/
def crcShift (c : Byte) : Byte :=
  if c.getLsbD 7 then (c <<< 1) ^^^ Config.crcPoly else c <<< 1

/-- `n` bit-shifts. -/
def crcShifts : Nat → Byte → Byte
  | 0, c => c
  | n + 1, c => crcShifts n (crcShift c)

/-- `crc8_byte` (R80). -/
def crc8Byte (i : Byte) : Byte := crcShifts 8 i

/-- The build's writes for the entries below `n` (R80: `LUT[i] <- crc8_byte(i)`, every entry, reads nothing). They are
made from the top entry down; no response and no later state tells the order (log entry 8). The attribute keeps Lean's
elaborator from running 256 writes to compare two states; the kernel evaluates it. -/
@[irreducible] def buildEntries : Nat → Memory → Memory
  | 0, m => m
  | n + 1, m => buildEntries n (Memory.write m n (crc8Byte (BitVec.ofNat 8 n)))

/-- `build()` (R80). -/
def buildTable (s : State) : State :=
  { s with lut := buildEntries Config.lutEntries s.lut, tValid := true }

/-- `ensure_table()` (R81). -/
def ensureTable (s : State) : State := if s.tValid then s else buildTable s

/-- The two lookups of R82 in the table as it stands. -/
def lookupCrc (s : State) (w : Word) : Byte :=
  lutRead s (lutRead s (Config.crcInit ^^^ hi w) ^^^ lo w) ^^^ Config.crcXorOut

/-- `crc8_word` (R82): the lazy build, then the two lookups, the high byte first (20_memory.md R43). -/
def crc8Word (w : Word) (s : State) : Byte × State :=
  let s1 := ensureTable s
  (lookupCrc s1 w, s1)

/-- `respond` (R9, R60): the response of the request in flight is delivered, and `BUSY <- 0`. -/
def respond (bytes : List Byte) (s : State) : State :=
  { s with
    responses := s.responses ++ [{ answers := s.inFlight, bytes := bytes }]
    busy := false
    inFlight := none }

/-- The end of an operation that succeeds: `OK` and the result (R63). -/
def respondOk (result : List Byte) (s : State) : State := respond (okBytes result) s

/-- `raise` (R9, R131, R134): the one operation by which an error is taken. It ends the operation and delivers the
error's response; it saves no state, changes no mode and redirects nothing. -/
def raise (e : BlockError) (s : State) : State := respond (errorBytes e) s

end Sys2Proof.Machine
end

