-- ==== Sys2Proof/Machine/Operands.lean ====
section
/-! DEFINITION. The operand forms of the codec: outgoing frames (41_frame_codec.md R101, R103) and response groups, one
or a sequence (R105, R108, R111). -/

namespace Sys2Proof.Machine

/-- A response unit `[byte_hi, byte_lo, crc]` (00_scope.md R11). -/
structure Group where
  byteHi : Byte
  byteLo : Byte
  crc : Byte
  deriving DecidableEq, Repr

/-- The 2-byte bare-command frame (R103). -/
def bareFrame (cmd : Word) : List Byte := wordBytes cmd

/-- The 5-byte write frame with the checksum of its data word (R101). -/
def writeFrame (cmd data : Word) (crc : Byte) : List Byte := wordBytes cmd ++ wordBytes data ++ [crc]

/-- The groups of a byte buffer in wire order: group `k` is bytes `3k`, `3k+1`, `3k+2` (20_memory.md R46, R111). -/
def groupsOf : List Byte → List Group
  | a :: b :: c :: rest => { byteHi := a, byteLo := b, crc := c } :: groupsOf rest
  | _ => []

/-- `decode_group` (R105): the word where the group's checksum matches, none where it does not. -/
def decodeGroup (g : Group) (s : State) : Option Word × State :=
  let w := wordOf g.byteHi g.byteLo
  let r := crc8Word w s
  (if r.1 = g.crc then some w else none, r.2)

/-- The group loop of R108 from group number `k` on: the decoded words' bytes in wire order, or the number of the first
failing group (R111, R113). -/
def decodeGroups : Nat → List Group → State → Except Nat (List Byte) × State
  | _, [], s => (.ok [], s)
  | k, g :: gs, s =>
    match decodeGroup g s with
    | (none, s1) => (.error k, s1)
    | (some w, s1) =>
      match decodeGroups (k + 1) gs s1 with
      | (.ok out, s2) => (.ok (wordBytes w ++ out), s2)
      | (.error j, s2) => (.error j, s2)

end Sys2Proof.Machine
end

