-- ==== Sys2Proof/Machine/Codec.lean ====
section
/-! DEFINITION. The Frame Codec's operations: ENCODE_WRITE, ENCODE_READ, DECODE_WORD, DECODE_WORDS
(41_frame_codec.md). The request-length error of each is raised where a request is decoded (30_encoding.md R67;
Machine/Run.lean). -/

namespace Sys2Proof.Machine

/-- ENCODE_WRITE CMD, DATA (R101, R102): the checksum covers the data word only. -/
def execEncodeWrite (cmd data : Word) (s : State) : Result :=
  let r := crc8Word data s
  .next (respondOk (writeFrame cmd data r.1) r.2)

/-- ENCODE_READ CMD (R103, R104): no checksum, no build. -/
def execEncodeRead (cmd : Word) (s : State) : Result :=
  .next (respondOk (bareFrame cmd) s)

/-- DECODE_WORD B0, B1, B2 (R106, R107). -/
def execDecodeWord (b0 b1 b2 : Byte) (s : State) : Result :=
  .next
    (match decodeGroup { byteHi := b0, byteLo := b1, crc := b2 } s with
    | (some w, s1) => respondOk (wordBytes w) s1
    | (none, s1) => raise (.checksumFailure 0x00) s1)

/-- DECODE_WORDS N, [R...] (R108): the range of `N` (R109), then the byte count (R112), then the groups in order
(R111, R113, R114). -/
def execDecodeWords (n : Byte) (r : List Byte) (s : State) : Result :=
  .next
    (if n.toNat = 0 ∨ s.params.nmax < n.toNat then raise .illegalOperation s
    else if r.length ≠ Config.groupBytes * n.toNat then raise .malformedResponse s
    else
      match decodeGroups 0 (groupsOf r) s with
      | (.ok out, s1) => respondOk (n :: out) s1
      | (.error k, s1) => raise (.checksumFailure (BitVec.ofNat 8 k)) s1)

end Sys2Proof.Machine
end

