-- ==== Sys2Proof/Machine/Engine.lean ====
section
/-! DEFINITION. The CRC8 Engine's operations: BUILD, CHECKSUM, VALIDATE (40_crc8_engine.md). The request-length error of
each is raised where a request is decoded (30_encoding.md R67; Machine/Run.lean). -/

namespace Sys2Proof.Machine

/-- BUILD (R84, R85). -/
def execBuild (s : State) : Result := .next (respondOk [] (ensureTable s))

/-- CHECKSUM W (R86, R87). -/
def execChecksum (w : Word) (s : State) : Result :=
  let r := crc8Word w s
  .next (respondOk [r.1] r.2)

/-- VALIDATE HIGH, LOW, CRC (R88): a failed check is a result, not an error. -/
def execValidate (high low crc : Byte) (s : State) : Result :=
  let r := crc8Word (wordOf high low) s
  .next (respondOk [boolByte (r.1 == crc)] r.2)

end Sys2Proof.Machine
end

