-- ==== Sys2Proof/Machine/Dispatch.lean ====
section
/-! DEFINITION. One arm per operation of 30_encoding.md R65. -/

namespace Sys2Proof.Machine

def exec (i : Instr) (s : State) : Host.Outcome State Fault Refusal :=
  match i with
  | .build => Sys2Proof.Machine.execBuild s
  | .checksum w => Sys2Proof.Machine.execChecksum w s
  | .validate high low crc => Sys2Proof.Machine.execValidate high low crc s
  | .encodeWrite cmd data => Sys2Proof.Machine.execEncodeWrite cmd data s
  | .encodeRead cmd => Sys2Proof.Machine.execEncodeRead cmd s
  | .decodeWord b0 b1 b2 => Sys2Proof.Machine.execDecodeWord b0 b1 b2 s
  | .decodeWords n r => Sys2Proof.Machine.execDecodeWords n r s

end Sys2Proof.Machine
end

