-- ==== Sys2Proof/Machine/Port.lean ====
section
/-! DEFINITION. The request port (30_encoding.md R60, 60_exceptions.md R144) and the reset input
(70_reset_and_hazards.md R150, R151): what the outside world does to the block, and how the block accepts a request. -/

namespace Sys2Proof.Machine

/-- A requester presents a request: it stands at the port, held until it is accepted (R60). -/
def present (r : Request) (s : State) : State := { s with held := s.held ++ [r] }

/-- The outside world asserts the reset input (R150). -/
def raiseReset (s : State) : State := { s with resetIn := true }

/-- The block's reaction to reset (R150, R151): every piece of state at its reset value, the request in flight and the
held ones abandoned without a response. The table's contents are unspecified from here on: a fresh free value. The
responses already delivered are the requester's, and the parameters are fixed. -/
def assertReset (s : State) : State :=
  { State.reset with
    responses := s.responses
    params := s.params
    lutEpoch := s.lutEpoch + 1
    grants := s.grants }

/-- The requests that may be accepted next: the oldest one of each requester, because a requester's requests are taken
in the order it presents them (10_state.md R22), while the order among requesters is open (R144). -/
def candidates : List Request → List Request
  | [] => []
  | r :: rs => r :: (candidates rs).filter (fun q => q.requester != r.requester)

/-- The request the port accepts next: where several requesters wait, the free arbitration decides (I6; log entry 5). -/
def nextRequest (s : State) : Option Request :=
  match candidates s.held with
  | [] => none
  | [r] => some r
  | r :: rs => (r :: rs)[Config.arbiter s.grants % (rs.length + 1)]?

/-- Acceptance (R60): `BUSY <- 1`; the request leaves the port. -/
def accept (r : Request) (s : State) : State :=
  { s with
    busy := true
    inFlight := some r
    held := s.held.erase r
    grants := s.grants + 1 }

/-- The port while `BUSY = 0`: it accepts the next request, or waits where none is presented (R60, R152). -/
def acceptNext (s : State) : State :=
  match nextRequest s with
  | some r => accept r s
  | none => s

end Sys2Proof.Machine
end

