-- ==== Sys2Proof/Machine/Run.lean ====
section
/-! DEFINITION. The execution of the request in flight (30_encoding.md R60, R66, R67). -/

namespace Sys2Proof.Machine

/-- Execute a request: the operation its bytes select, or ILLEGAL_OPERATION with nothing performed where the operation
code is reserved or missing (R66) or the length is not the format's (R67). -/
def runRequest (r : Request) (s : State) : Result :=
  match decode r.bytes with
  | some i => exec i s
  | none => .next (raise .illegalOperation s)

/-- The step of a busy block: execute the request in flight to completion and deliver its response (R60). A busy block
with nothing in flight is reached by no run; it stays as it is (log entry 10). -/
def runInFlight (s : State) : Result :=
  match s.inFlight with
  | some r => runRequest r s
  | none => .next s

/-- A request put in flight by itself, as if the port had just accepted it (log entry 4). -/
def putInFlight (r : Request) (s : State) : State :=
  { s with busy := true, inFlight := some r, resetIn := false }

end Sys2Proof.Machine
end

