-- ==== Sys2Proof/Machine/Step.lean ====
section
/-! DEFINITION. One step of the block (30_encoding.md R60; 70_reset_and_hazards.md R150): reset where it is asserted,
else the execution of the request in flight, else the acceptance of the next request. -/

namespace Sys2Proof.Machine

def step (s : State) : Host.Outcome State Fault Refusal :=
  if s.resetIn then .next (assertReset s)
  else if s.busy then runInFlight s
  else .next (acceptNext s)

/-- The machine with an opcode-table word as the request in flight, so that the very next step runs it (log
entry 4). -/
def State.withFetchWord (s : State) (nbits w : Nat) : State :=
  putInFlight { requester := 0, bytes := tableBytes nbits w } s

end Sys2Proof.Machine
end

