-- ==== Sys2Proof/Assembly.lean ====
section
/-! DEFINITION. The textual syntax of requests and responses and the pseudo-operations (30_encoding.md R71, R72). It is a
notation: the machine reads request bytes only. -/

namespace Sys2Proof

/-- The pseudo-operations of R72: the source's function names. -/
inductive PseudoOp where
  | build_table
  | checksum (w : Word)
  | validate (h l c : Byte)
  | encode_write (c d : Word)
  | encode_read (c : Word)
  | decode_word (b0 b1 b2 : Byte)
  | decode_words (n : Byte) (r : List Byte)
  deriving DecidableEq, Repr

/-- Each pseudo-operation expands to exactly one request (R72). -/
def PseudoOp.expand : PseudoOp → Instr
  | .build_table => .build
  | .checksum w => .checksum w
  | .validate h l c => .validate h l c
  | .encode_write c d => .encodeWrite c d
  | .encode_read c => .encodeRead c
  | .decode_word b0 b1 b2 => .decodeWord b0 b1 b2
  | .decode_words n r => .decodeWords n r

/-- A hexadecimal digit. -/
def hexDigit (n : Nat) : Char := if n < 10 then Char.ofNat (48 + n) else Char.ofNat (55 + n)

/-- The digits of a byte. -/
def hexDigits (b : Byte) : List Char := [hexDigit (b.toNat / 16), hexDigit (b.toNat % 16)]

/-- A byte as a hexadecimal literal (R8, R71). -/
def hexByte (b : Byte) : List Char := '0' :: 'x' :: hexDigits b

/-- A word as a hexadecimal literal. -/
def hexWord (w : Word) : List Char := '0' :: 'x' :: (hexDigits (hi w) ++ hexDigits (lo w))

/-- Items with a comma and a space between them. -/
def commaSeparated : List (List Char) → List Char
  | [] => []
  | [a] => a
  | a :: l => a ++ ',' :: ' ' :: commaSeparated l

/-- A byte list in brackets. -/
def bracketed (r : List Byte) : List Char := '[' :: (commaSeparated (r.map hexByte) ++ [']'])

/-- `MNEMONIC operand, operand, ...` (R71), by the mnemonic's characters and the operands' texts. -/
def statementText (mnemonic : List Char) (operands : List (List Char)) : List Char :=
  match operands with
  | [] => mnemonic
  | _ => mnemonic ++ ' ' :: commaSeparated operands

/-- A request in the syntax of R71, with the operands in the order of R62. `L` is not written: it is the count of the
bytes in brackets. -/
def Instr.text : Instr → List Char
  | .build => statementText "BUILD".toList []
  | .checksum w => statementText "CHECKSUM".toList [hexWord w]
  | .validate h l c =>
    statementText "VALIDATE".toList [hexByte h, hexByte l, hexByte c]
  | .encodeWrite cmd data =>
    statementText "ENCODE_WRITE".toList [hexWord cmd, hexWord data]
  | .encodeRead cmd => statementText "ENCODE_READ".toList [hexWord cmd]
  | .decodeWord b0 b1 b2 =>
    statementText "DECODE_WORD".toList [hexByte b0, hexByte b1, hexByte b2]
  | .decodeWords n r =>
    statementText "DECODE_WORDS".toList [hexByte n, bracketed r]

/-- A response in the syntax of R71: `-> [ST, ...]`. -/
def responseText (r : List Byte) : List Char := '-' :: '>' :: ' ' :: bracketed r

end Sys2Proof
end

