-- ==== Sys2Proof/Safety.lean ====
section
/-! DEFINITION. The terms the statements use: when the table is right, the machine's invariant, what an operation leaves
unchanged, the checksum and the response as functions of bytes alone (without the table), and the corruption of a
group. None of it is used by the machine. -/

namespace Sys2Proof.Safety

open Sys2Proof.Machine

/-! ### The checksum without the table -/

/-- The checksum of a word by `crc8_byte` alone, the high byte first (40_crc8_engine.md R82 with R24). -/
def crcOf (w : Word) : Byte := crc8Byte (crc8Byte (0xFF ^^^ hi w) ^^^ lo w)

/-- One step of a bit-serial CRC-8 register with polynomial 0x31, not reflected: the message bit meets the bit that
leaves the register. -/
def serialBit (c : Byte) (b : Bool) : Byte :=
  if Bool.xor (c.getLsbD 7) b then (c <<< 1) ^^^ 0x31 else c <<< 1

/-- One message byte through the register, most significant bit first. -/
def serialByte (c m : Byte) : Byte :=
  [7, 6, 5, 4, 3, 2, 1, 0].foldl (fun c k => serialBit c (m.getLsbD k)) c

/-- The bit-serial CRC-8 of a message: initial value 0xFF, final XOR 0x00 (R82). -/
def serialCrc (message : List Byte) : Byte := message.foldl serialByte 0xFF ^^^ 0x00

/-- Multiplication of bit polynomials over GF(2), as 16-bit words: `q * p`. -/
def polyMul (q p : Word) : Word :=
  ((List.range 16).map (fun k => if q.getLsbD k then p <<< k else 0)).foldl (· ^^^ ·) 0

/-! ### The table and the invariant -/

/-- The table invariant of 10_state.md R24: whenever `T_VALID = 1`, every entry is `crc8_byte` of its index. -/
def TableOk (s : State) : Prop := s.tValid = true → ∀ i : Byte, lutRead s i = crc8Byte i

/-- What every step keeps. -/
structure BlockInv (s : State) : Prop where
  /-- The table's memory has its canonical form. -/
  memory : Memory.wf s.lut = true
  /-- R24. -/
  table : TableOk s
  /-- The table is never partly built (20_memory.md R52). -/
  whole : s.tValid = false → s.lut = []
  /-- R27: `BUSY` is 1 exactly while a request is in flight. -/
  busy : s.busy = s.inFlight.isSome
  /-- R7: the range of `NMAX`. -/
  params : s.params.ok

/-- The table of `t` is built and right, and it is the one `s` had where `s` had one. -/
def TableBuilt (s t : State) : Prop :=
  t.tValid = true ∧ (∀ i : Byte, lutRead t i = crc8Byte i) ∧ (s.tValid = true → t.lut = s.lut)

/-- The table is as it was: no entry and no `T_VALID` is written, and every entry reads as before. -/
def TableKept (s t : State) : Prop :=
  t.tValid = s.tValid ∧ t.lut = s.lut ∧ ∀ i : Byte, lutRead t i = lutRead s i

/-- `t` is `s` after an operation that answered `bytes`: that one response is delivered, to the request that was in
flight, the block is free again, and nothing else outside the table is changed. -/
structure Answered (s t : State) (bytes : List Byte) : Prop where
  responses : t.responses = s.responses ++ [{ answers := s.inFlight, bytes := bytes }]
  busy : t.busy = false
  inFlight : t.inFlight = none
  held : t.held = s.held
  resetIn : t.resetIn = s.resetIn
  params : t.params = s.params
  lutEpoch : t.lutEpoch = s.lutEpoch
  grants : t.grants = s.grants

/-- A request is in flight and reset is not asserted: the next step executes it. -/
def InFlight (s : State) (r : Request) : Prop :=
  s.resetIn = false ∧ s.busy = true ∧ s.inFlight = some r

/-- No request is in flight and reset is not asserted. -/
def Idle (s : State) : Prop := s.resetIn = false ∧ s.busy = false ∧ s.inFlight = none

/-- The step answers a next state that is `s` after the response `bytes`, its table as it was. -/
def StepRejects (s : State) (bytes : List Byte) : Prop :=
  ∃ t, step s = .next t ∧ Answered s t bytes ∧ TableKept s t

/-! ### Requests the block cannot give a meaning -/

/-- R66: an empty request, or an operation code 0x00 or 0x08..0xFF. -/
def ReservedRequest (bytes : List Byte) : Prop :=
  bytes = [] ∨ ∃ op rest, bytes = op :: rest ∧ (op.toNat = 0 ∨ 8 ≤ op.toNat)

/-- R67: a defined operation code with a length that is not its format's. -/
def WrongLength (bytes : List Byte) : Prop :=
  ∃ op rest, bytes = op :: rest ∧
    ((op = 0x01 ∧ bytes.length ≠ 1) ∨
     (op = 0x02 ∧ bytes.length ≠ 3) ∨
     (op = 0x03 ∧ bytes.length ≠ 4) ∨
     (op = 0x04 ∧ bytes.length ≠ 5) ∨
     (op = 0x05 ∧ bytes.length ≠ 3) ∨
     (op = 0x06 ∧ bytes.length ≠ 4) ∨
     (op = 0x07 ∧ (bytes.length < 3 ∨ bytes.length ≠ 3 + (bytes.getD 2 0).toNat)))

/-! ### Groups and responses as functions of bytes -/

/-- Group `k` of a byte buffer (41_frame_codec.md R111): bytes `3k`, `3k+1`, `3k+2`. -/
def groupAt (r : List Byte) (k : Nat) : Byte × Byte × Byte :=
  (r.getD (3 * k) 0, r.getD (3 * k + 1) 0, r.getD (3 * k + 2) 0)

/-- R105: a group is good when its third byte is the checksum of its first two. -/
def groupGood (r : List Byte) (k : Nat) : Prop :=
  crcOf (wordOf (groupAt r k).1 (groupAt r k).2.1) = (groupAt r k).2.2

/-- The words' bytes of groups `0 .. n-1`, in wire order (R114). -/
def wordsOf (r : List Byte) (n : Nat) : List Byte :=
  (List.range n).flatMap (fun k => [(groupAt r k).1, (groupAt r k).2.1])

/-- The groups `k .. k+n-1` judged in order: the first bad one, if any (R113). -/
def firstBad (r : List Byte) : Nat → Nat → Option Nat
  | _, 0 => none
  | k, n + 1 =>
    if crcOf (wordOf (groupAt r k).1 (groupAt r k).2.1) = (groupAt r k).2.2 then firstBad r (k + 1) n else some k

/-- The response of an operation as a function of its operands alone. -/
def resultOf (nmax : Nat) : Instr → List Byte
  | .build => [0x00]
  | .checksum w => [0x00, crcOf w]
  | .validate h l c => [0x00, if crcOf (wordOf h l) = c then 0x01 else 0x00]
  | .encodeWrite cmd data => [0x00, hi cmd, lo cmd, hi data, lo data, crcOf data]
  | .encodeRead cmd => [0x00, hi cmd, lo cmd]
  | .decodeWord a b c => if crcOf (wordOf a b) = c then [0x00, a, b] else [0x01, 0x00]
  | .decodeWords n r =>
    if n.toNat = 0 ∨ nmax < n.toNat then [0x03]
    else if r.length ≠ 3 * n.toNat then [0x02]
    else
      match firstBad r 0 n.toNat with
      | some k => [0x01, BitVec.ofNat 8 k]
      | none => 0x00 :: n :: wordsOf r n.toNat

/-- The response to a request as a function of its bytes alone (20_memory.md R48). -/
def responseOf (nmax : Nat) (bytes : List Byte) : List Byte :=
  match decode bytes with
  | some i => resultOf nmax i
  | none => [0x03]

/-- Every response delivered so far is the one its request's bytes determine. -/
def HistoryOk (s : State) : Prop :=
  ∀ d ∈ s.responses, ∃ r, d.answers = some r ∧ d.bytes = responseOf s.params.nmax r.bytes

/-! ### Which error a request meets, from its bytes and `NMAX` (60_exceptions.md R131, R133) -/

/-- ILLEGAL_OPERATION: the request selects no operation, or its `N` is out of range. -/
def RequestIllegal (p : Config.Params) (bytes : List Byte) : Prop :=
  decode bytes = none ∨ ∃ i, decode bytes = some i ∧ i.legal p = false

/-- MALFORMED_RESPONSE: a DECODE_WORDS with a legal `N` whose byte count is not `3N`. -/
def RequestMalformed (p : Config.Params) (bytes : List Byte) : Prop :=
  ∃ n body, decode bytes = some (.decodeWords n body) ∧ (Instr.decodeWords n body).legal p = true ∧
    body.length ≠ 3 * n.toNat

/-- CHECKSUM_FAILURE of group `k`: a DECODE_WORD whose one group, number 0, fails; or a DECODE_WORDS with a legal `N` and
`3N` bytes, of whose groups `k` is the first that fails. -/
def RequestHasBadGroup (p : Config.Params) (bytes : List Byte) (k : Nat) : Prop :=
  (k = 0 ∧ ∃ a b c, decode bytes = some (.decodeWord a b c) ∧ ¬ groupGood [a, b, c] 0) ∨
  ∃ n body, decode bytes = some (.decodeWords n body) ∧ (Instr.decodeWords n body).legal p = true ∧
    body.length = 3 * n.toNat ∧ k < n.toNat ∧ ¬ groupGood body k ∧ ∀ j, j < k → groupGood body j

/-- OK: the request selects an operation, its `N` is legal, its byte count is `3N`, and no group fails; the last three
concern the decode operations alone. -/
def RequestSucceeds (p : Config.Params) (bytes : List Byte) : Prop :=
  ∃ i, decode bytes = some i ∧ i.legal p = true ∧
    (∀ n body, i = .decodeWords n body → body.length = 3 * n.toNat ∧ ∀ k, k < n.toNat → groupGood body k) ∧
    (∀ a b c, i = .decodeWord a b c → groupGood [a, b, c] 0)

/-! ### Corruption of a group -/

/-- The 24 bits of a group `[hi, lo, crc]`, the high byte first. -/
def groupBits (h l c : Byte) : BitVec 24 := (h ++ l ++ c : BitVec (8 + 8 + 8))

/-- A single-bit error at bit `k` (0..23). -/
def bitError (k : Nat) : BitVec 24 := 1 <<< k

/-- The valid group of a word with the error `e` applied to its 24 bits, as the VALIDATE of its three bytes. -/
def validateCorrupted (w : Word) (e : BitVec 24) : Instr :=
  let g := groupBits (hi w) (lo w) (crcOf w) ^^^ e
  .validate (g.extractLsb' 16 8) (g.extractLsb' 8 8) (g.extractLsb' 0 8)

end Sys2Proof.Safety
end

