-- ==== Sys2Proof/Certificates/Slice0/Obligations.lean ====
section
/-! DEFINITION. The statements for the provers, each with the rule of spec/ it formalises. `TableOk s` (10_state.md R24)
and `BlockInv s` are premises only where a state that no run reaches would make the statement false; that every step keeps
them is stated by `StepKeepsInvariant` and `TableStaysRightAndUnchanged`, that reset has them by
`ResetStateMeetsInvariant`. -/

open Sys2Proof Sys2Proof.Machine Sys2Proof.Safety

/-! ### Encoding -/

/-- Words written out from the formats of 30_encoding.md R62 and the codes of R65, one per operation. -/
def Obligations.SpecEncodingsDecode : Prop :=
  decode [0x01] = some .build ∧
  decode [0x02, 0xBE, 0xEF] = some (.checksum 0xBEEF) ∧
  decode [0x03, 0xBE, 0xEF, 0x92] = some (.validate 0xBE 0xEF 0x92) ∧
  decode [0x04, 0x53, 0x06, 0x00, 0x01] = some (.encodeWrite 0x5306 0x0001) ∧
  decode [0x05, 0xD1, 0x00] = some (.encodeRead 0xD100) ∧
  decode [0x06, 0x43, 0xC8, 0xDB] = some (.decodeWord 0x43 0xC8 0xDB) ∧
  decode [0x07, 0x02, 0x04, 0xBE, 0xEF, 0x92, 0x01] = some (.decodeWords 0x02 [0xBE, 0xEF, 0x92, 0x01])

/-- Every well-formed instruction survives encoding and decoding, with every operand. -/
def Obligations.DecodeOfEncodeIsIdentity : Prop :=
  ∀ i : Instr, i.wf = true → decode (encode i) = some i

/-- A request has one meaning and every byte of it counts: what decodes to `i` is the encoding of `i`, and `i` is
well-formed. -/
def Obligations.EncodeOfDecodeIsIdentity : Prop :=
  ∀ (bytes : List Byte) (i : Instr), decode bytes = some i → encode i = bytes ∧ i.wf = true

/-- The decoder refuses exactly the requests of R66 and R67. -/
def Obligations.DecoderRefusesExactlyReservedAndWrongLength : Prop :=
  ∀ bytes : List Byte, decode bytes = none ↔ ReservedRequest bytes ∨ WrongLength bytes

/-! ### The step and the port -/

/-- A step on a request in flight that decodes to an instruction is `exec` of it (30_encoding.md R60, R61). That the
acceptance is a step before it is the model's choice (log entry 3). -/
def Obligations.StepExecutesDecodedInstruction : Prop :=
  ∀ (s : State) (r : Request) (i : Instr), InFlight s r → decode r.bytes = some i → step s = exec i s

/-- What 30_encoding.md R60 says of the port: an idle port accepts one presented request and sets `BUSY`; the request in
flight runs to completion as the operation its bytes select, its response is delivered and `BUSY` cleared; a request
presented meanwhile is held, after those that wait already, and is neither dropped nor taken before the request in
flight. Two clauses are the model's choices, not R60's: that acceptance and execution are one step each (log entry 3),
and that the accepted request is the oldest of its requester (log entry 5, DEDUCED). Which of several waiting requesters
is taken is open (60_exceptions.md R144). -/
def Obligations.PortAcceptsExecutesAndHolds : Prop :=
  (∀ s : State, Idle s → s.held ≠ [] →
    ∃ t r before after, step s = .next t ∧ s.held = before ++ r :: after ∧ t.held = before ++ after ∧
      (∀ q ∈ before, q.requester ≠ r.requester) ∧ t.busy = true ∧ t.inFlight = some r ∧
      t.responses = s.responses ∧ TableKept s t) ∧
  (∀ (s : State) (r q : Request), InFlight s r →
    InFlight (present q s) r ∧ (present q s).held = s.held ++ [q] ∧
    (∀ i, decode r.bytes = some i → step (present q s) = exec i (present q s)) ∧
    ∃ t bytes, step (present q s) = .next t ∧
      t.responses = s.responses ++ [{ answers := some r, bytes := bytes }] ∧
      t.busy = false ∧ t.inFlight = none ∧ t.held = s.held ++ [q])

/-- An idle block with nothing presented waits (70_reset_and_hazards.md R152): the step leaves every piece of state as it
is. That waiting is a step of its own is the model's choice (log entry 4). -/
def Obligations.IdleBlockWaitsUnchanged : Prop :=
  ∀ s : State, Idle s → s.held = [] → step s = .next s

/-- The block never hangs (70_reset_and_hazards.md R159): a request in flight is answered and the block is free again,
and every state has a next state. The model's choices in it: that the answer takes one step (log entry 3), that no state
ends in a fault (log entry 13, DEDUCED), and that a state with `BUSY` set and nothing in flight, which no run reaches,
stays as it is (log entry 10). -/
def Obligations.EveryOperationEnds : Prop :=
  (∀ s : State, ∃ t, step s = .next t) ∧
  (∀ (s : State) (r : Request), InFlight s r →
    ∃ t bytes, step s = .next t ∧ t.responses = s.responses ++ [{ answers := some r, bytes := bytes }] ∧
      t.busy = false ∧ t.inFlight = none)

/-- R66, whole: a reserved operation code, and an empty request, performs nothing and is answered `[0x03]`. -/
def Obligations.ReservedRequestsAnswerIllegalOperation : Prop :=
  ∀ (s : State) (r : Request), InFlight s r → ReservedRequest r.bytes → StepRejects s [0x03]

/-- R67, whole: a request whose length is not its format's performs nothing and is answered `[0x03]`. -/
def Obligations.WrongLengthAnswersIllegalOperation : Prop :=
  ∀ (s : State) (r : Request), InFlight s r → WrongLength r.bytes → StepRejects s [0x03]

/-! ### The invariant and the history -/

/-- The state after reset has the invariant, an empty history, and waits. `T_VALID`, `BUSY` and the empty port are the
values of 70_reset_and_hazards.md R150. The model's choices in it: no response delivered yet and the reset input not
asserted (log entry 15, on which `HistoryOk` and `Idle` rest), the table listing nothing (log entry 1), and `NMAX` at
R7's default (log entry 2, on which the range of `NMAX` rests). -/
def Obligations.ResetStateMeetsInvariant : Prop :=
  BlockInv State.reset ∧ HistoryOk State.reset ∧ Idle State.reset ∧ State.reset.tValid = false ∧ State.reset.held = []

/-- Every step keeps the invariant: the table's memory stays canonical, a valid table stays right and is never partly
built, `BUSY` is 1 exactly while a request is in flight, `NMAX` stays in its range. -/
def Obligations.StepKeepsInvariant : Prop :=
  ∀ s t : State, BlockInv s → step s = .next t → BlockInv t

/-- Every response ever delivered is the one that the bytes of its request determine, without the table: the machine
with its lazily built table refines the pure function `responseOf`. -/
def Obligations.DeliveredResponsesAreFunctionsOfRequests : Prop :=
  ∀ s t : State, BlockInv s → HistoryOk s → step s = .next t → HistoryOk t

/-- R24: whenever `T_VALID = 1` every entry is `crc8_byte` of its index, and a built table never changes: a step keeps
both, unless it resets. Before the first build the contents are unspecified, and no operation reads them: whatever the
table holds then, the response is the same. -/
def Obligations.TableStaysRightAndUnchanged : Prop :=
  (∀ s t : State, TableOk s → step s = .next t →
    TableOk t ∧ (s.tValid = true → s.resetIn = false → t.tValid = true ∧ t.lut = s.lut)) ∧
  (∀ (s : State) (i : Instr) (m : Memory), s.tValid = false →
    ∃ t1 t2, exec i s = .next t1 ∧ exec i { s with lut := m } = .next t2 ∧ t1.responses = t2.responses)

/-- The one write an operation can perform on the table is the whole build, and only where there is no table. -/
def Obligations.OnlyTableWriteIsTheOneTimeBuild : Prop :=
  ∀ (i : Instr) (s t : State), exec i s = .next t →
    TableKept s t ∨ (s.tValid = false ∧ t.tValid = true ∧ ∀ k : Byte, lutRead t k = crc8Byte k)

/-- An operation changes nothing outside the table but what its one response changes. -/
def Obligations.OperationsChangeOnlyResponseAndTable : Prop :=
  ∀ (i : Instr) (s : State), ∃ t bytes, exec i s = .next t ∧ Answered s t bytes

/-- R26: no response byte depends on `T_VALID` or on the table: two states that differ in them alone give every
operation the same response. -/
def Obligations.ResponsesDoNotRevealTheTable : Prop :=
  ∀ (i : Instr) (s : State) (m : Memory) (v : Bool),
    TableOk s → TableOk { s with lut := m, tValid := v } →
    ∃ t1 t2, exec i s = .next t1 ∧ exec i { s with lut := m, tValid := v } = .next t2 ∧
      t1.responses = t2.responses

/-- R48: the response is a function of the request's bytes: two blocks with the same `NMAX`, whatever else differs (the
table built or not, the requester, the history), answer the same bytes with the same response; and presenting a request
again gives the same response again. -/
def Obligations.SameRequestBytesSameResponse : Prop :=
  ∀ (s1 s2 : State) (r1 r2 : Request), TableOk s1 → TableOk s2 → InFlight s1 r1 → InFlight s2 r2 →
    r1.bytes = r2.bytes → s1.params = s2.params →
    ∃ t1 t2 bytes, step s1 = .next t1 ∧ step s2 = .next t2 ∧
      t1.responses = s1.responses ++ [{ answers := some r1, bytes := bytes }] ∧
      t2.responses = s2.responses ++ [{ answers := some r2, bytes := bytes }]

/-- 70_reset_and_hazards.md R164 and 20_memory.md R50: a run on a finite sequence of requests that one requester
presents at an idle block ends, two steps for each request, with every response delivered in order, each the function
of its request's bytes, and the block idle. The model's choices in it: that a request takes two steps (log entry 3), and
that one requester's requests are taken in the order it presented them (log entry 5, DEDUCED). -/
def Obligations.RunDeliversEveryResponseInOrder : Prop :=
  ∀ (s : State) (q : Nat), BlockInv s → Idle s → (∀ r ∈ s.held, r.requester = q) →
    ∃ t, Host.Core.run Sys2Proof.core (2 * s.held.length) s = .next t ∧
      t.responses =
        s.responses ++ s.held.map (fun r => { answers := some r, bytes := responseOf s.params.nmax r.bytes }) ∧
      t.held = [] ∧ Idle t ∧ BlockInv t

/-- The parameter `NMAX` is fixed for the machine: no step changes it. -/
def Obligations.ParametersNeverChange : Prop :=
  ∀ s t : State, step s = .next t → t.params = s.params

/-! ### Reset -/

/-- R150: reset puts every piece of state in its reset value; the table's contents are unspecified, and no response
tells them: whatever the table holds after reset, an operation answers the same. -/
def Obligations.ResetInputGivesResetValues : Prop :=
  ∀ s : State, s.resetIn = true →
    ∃ t, step s = .next t ∧ t.tValid = false ∧ t.busy = false ∧ t.inFlight = none ∧ t.held = [] ∧
      ∀ (m : Memory) (i : Instr), ∃ t1 t2, exec i t = .next t1 ∧ exec i { t with lut := m } = .next t2 ∧
        t1.responses = t2.responses

/-- R151: a request in flight when reset is asserted gets no response, the held ones are discarded, the table counts as
unbuilt; a request presented again is then accepted and answered as its bytes determine, which is what the abandoned
operation would have answered. That the input is released by the step that sees it, and that the request presented again
takes two steps, are the model's choices (log entries 6 and 3). -/
def Obligations.ResetAbandonsRequestInFlight : Prop :=
  ∀ (s : State) (r : Request), TableOk s → InFlight s r →
    ∃ t, step (raiseReset s) = .next t ∧ t.responses = s.responses ∧ t.tValid = false ∧ t.busy = false ∧
      t.inFlight = none ∧ t.held = [] ∧
      ∃ bytes t1 t2 t3, step s = .next t1 ∧
        t1.responses = s.responses ++ [{ answers := some r, bytes := bytes }] ∧
        step (present r t) = .next t2 ∧ step t2 = .next t3 ∧
        t3.responses = s.responses ++ [{ answers := some r, bytes := bytes }]

/-! ### The engine -/

/-- R82: `crc8_word` is `crc8_byte` of (`crc8_byte` of (0xFF xor the high byte) xor the low byte), which is the bit-serial CRC-8 with polynomial 0x31, initial value 0xFF, no reflection and final XOR 0x00,
fed the high byte and then the low byte; it leaves the table built. -/
def Obligations.TableLookupsComputeBitSerialCrc : Prop :=
  ∀ (s : State) (w : Word), TableOk s →
    (crc8Word w s).1 = crc8Byte (crc8Byte (0xFF ^^^ hi w) ^^^ lo w) ∧ (crc8Word w s).1 = serialCrc [hi w, lo w] ∧ TableBuilt s (crc8Word w s).2

/-- R80: an entry is the remainder of `i * x^8` modulo `x^8 + x^5 + x^4 + 1` (0x131) over GF(2). -/
def Obligations.TableEntryIsPolynomialRemainder : Prop :=
  ∀ i : Byte, ∃ q : Word, q.toNat < 256 ∧
    polyMul q 0x0131 ^^^ (crc8Byte i).setWidth 16 = i.setWidth 16 <<< 8

/-- R83: `crc8_byte` is a permutation; for a fixed high byte the checksum is a bijection of the low byte; each checksum
value belongs to exactly 256 words; and the three values the rule names. -/
def Obligations.ChecksumIsBalanced : Prop :=
  crcOf 0x0000 = 0x81 ∧ crcOf 0xFF00 = 0x00 ∧ crcOf 0xFFFF = 0xAC ∧
  Function.Bijective crc8Byte ∧
  (∀ h : Byte, Function.Bijective (fun l : Byte => crcOf (wordOf h l))) ∧
  (∀ c : Byte, ((List.range 65536).filter (fun w => crcOf (BitVec.ofNat 16 w) == c)).length = 256)

/-- R84, whole: BUILD. -/
def Obligations.BuildBuildsTheTableOnce : Prop :=
  decode [0x01] = some .build ∧
  (∀ s : State, TableOk s → ∃ t, exec .build s = .next t ∧ Answered s t [0x00] ∧ TableBuilt s t) ∧
  (∀ (s : State) (r : Request) (rest : List Byte), InFlight s r → r.bytes = 0x01 :: rest → rest ≠ [] →
    StepRejects s [0x03]) ∧
  crc8Byte 0x01 = 0x31

/-- R85 and the source's table determinism (95_test_vectors.md W2): a second BUILD rebuilds nothing, and two unbuilt
blocks end with tables that read the same at every entry. -/
def Obligations.BuildIsDeterministicAndIdempotent : Prop :=
  (∀ s t u : State, exec .build s = .next t → exec .build t = .next u → TableKept t u) ∧
  (∀ s1 s2 t1 t2 : State, s1.tValid = false → s2.tValid = false →
    exec .build s1 = .next t1 → exec .build s2 = .next t2 → ∀ i : Byte, lutRead t1 i = lutRead t2 i)

/-- R156: a BUILD before an operation changes none of the operation's response. -/
def Obligations.StartupBuildChangesNoResponse : Prop :=
  ∀ (s : State) (i : Instr), TableOk s →
    ∃ t1 t2 t3 bytes, exec i s = .next t1 ∧ exec .build s = .next t2 ∧ exec i t2 = .next t3 ∧
      (t1.responses.getLast?.map Response.bytes) = some bytes ∧
      (t3.responses.getLast?.map Response.bytes) = some bytes

/-- R86, whole: CHECKSUM. -/
def Obligations.ChecksumAnswersTheChecksum : Prop :=
  (∀ w : Word, decode [0x02, hi w, lo w] = some (.checksum w)) ∧
  (∀ (s : State) (w : Word), TableOk s →
    ∃ t, exec (.checksum w) s = .next t ∧ Answered s t [0x00, crcOf w] ∧ TableBuilt s t) ∧
  (∀ (s : State) (r : Request) (rest : List Byte), InFlight s r → r.bytes = 0x02 :: rest → rest.length ≠ 2 →
    StepRejects s [0x03]) ∧
  crcOf 0x0000 = 0x81

/-- R88, whole: VALIDATE; a failed check is a result, with status OK. -/
def Obligations.ValidateAnswersWhetherChecksumMatches : Prop :=
  (∀ h l c : Byte, decode [0x03, h, l, c] = some (.validate h l c)) ∧
  (∀ (s : State) (h l c : Byte), TableOk s →
    ∃ t, exec (.validate h l c) s = .next t ∧ TableBuilt s t ∧
      (crcOf (wordOf h l) = c → Answered s t [0x00, 0x01]) ∧
      (crcOf (wordOf h l) ≠ c → Answered s t [0x00, 0x00])) ∧
  (∀ (s : State) (r : Request) (rest : List Byte), InFlight s r → r.bytes = 0x03 :: rest → rest.length ≠ 3 →
    StepRejects s [0x03]) ∧
  crcOf (wordOf 0xBE 0xEF) = 0x92

/-- R89: the round trip, the one checksum byte that validates, and the all-zero group: the byte that CHECKSUM delivers
for a word validates with it, and no other does, in every state with a right table (the one CHECKSUM leaves among
them). -/
def Obligations.ValidateAcceptsExactlyTheChecksum : Prop :=
  ∀ (s : State) (w : Word), TableOk s →
    (∃ t c, exec (.checksum w) s = .next t ∧ Answered s t [0x00, c] ∧ TableOk t ∧
      ∀ u : State, TableOk u →
        (∃ v, exec (.validate (hi w) (lo w) c) u = .next v ∧ Answered u v [0x00, 0x01]) ∧
        ∀ d : Byte, d ≠ c → ∃ v, exec (.validate (hi w) (lo w) d) u = .next v ∧ Answered u v [0x00, 0x00]) ∧
    (∃ t, exec (.validate 0x00 0x00 0x00) s = .next t ∧ Answered s t [0x00, 0x00])

/-- R89: flipping any one of the 24 bits of a valid group makes VALIDATE false, for every word. -/
def Obligations.SingleBitCorruptionIsDetected : Prop :=
  ∀ (s : State) (w : Word) (k : Nat), TableOk s → k < 24 →
    ∃ t, exec (validateCorrupted w (bitError k)) s = .next t ∧ Answered s t [0x00, 0x00]

/-- R89: flipping any two distinct bits of a valid group makes VALIDATE false, for every word. -/
def Obligations.TwoBitCorruptionIsDetected : Prop :=
  ∀ (s : State) (w : Word) (j k : Nat), TableOk s → j < 24 → k < 24 → j ≠ k →
    ∃ t, exec (validateCorrupted w (bitError j ^^^ bitError k)) s = .next t ∧ Answered s t [0x00, 0x00]

/-! ### The codec -/

/-- R101, whole: ENCODE_WRITE. -/
def Obligations.EncodeWriteAnswersTheWriteFrame : Prop :=
  (∀ cmd data : Word, decode [0x04, hi cmd, lo cmd, hi data, lo data] = some (.encodeWrite cmd data)) ∧
  (∀ (s : State) (cmd data : Word), TableOk s →
    ∃ t, exec (.encodeWrite cmd data) s = .next t ∧
      Answered s t [0x00, hi cmd, lo cmd, hi data, lo data, crcOf data] ∧ TableBuilt s t) ∧
  (∀ (s : State) (r : Request) (rest : List Byte), InFlight s r → r.bytes = 0x04 :: rest → rest.length ≠ 4 →
    StepRejects s [0x03]) ∧
  (∀ s : State, TableOk s →
    ∃ t, exec (.encodeWrite 0x0010 0x0000) s = .next t ∧ Answered s t [0x00, 0x00, 0x10, 0x00, 0x00, 0x81])

/-- R102: the frame is always 5 bytes, its first four are the operand bytes unchanged, and its last is the same for
every command word: the checksum covers the data word, never the command word; data 0x0000 gives 0x81. -/
def Obligations.CommandWordNeverEntersTheChecksum : Prop :=
  (∀ (s : State) (data : Word), TableOk s → ∃ c : Byte, ∀ cmd : Word,
    ∃ t, exec (.encodeWrite cmd data) s = .next t ∧
      Answered s t (0x00 :: ([hi cmd, lo cmd, hi data, lo data] ++ [c])) ∧ (data = 0x0000 → c = 0x81))

/-- R103, whole: ENCODE_READ. It writes no state: the table is as it was, built or not. -/
def Obligations.EncodeReadAnswersTheBareFrame : Prop :=
  (∀ cmd : Word, decode [0x05, hi cmd, lo cmd] = some (.encodeRead cmd)) ∧
  (∀ (s : State) (cmd : Word),
    ∃ t, exec (.encodeRead cmd) s = .next t ∧ Answered s t [0x00, hi cmd, lo cmd] ∧ TableKept s t) ∧
  (∀ (s : State) (r : Request) (rest : List Byte), InFlight s r → r.bytes = 0x05 :: rest → rest.length ≠ 2 →
    StepRejects s [0x03]) ∧
  hi 0x0202 = 0x02 ∧ lo 0x0202 = 0x02

/-- R106, whole: DECODE_WORD. -/
def Obligations.DecodeWordAnswersWordOrFailure : Prop :=
  (∀ a b c : Byte, decode [0x06, a, b, c] = some (.decodeWord a b c)) ∧
  (∀ (s : State) (a b c : Byte), TableOk s →
    ∃ t, exec (.decodeWord a b c) s = .next t ∧ TableBuilt s t ∧
      (crcOf (wordOf a b) = c → Answered s t [0x00, hi (wordOf a b), lo (wordOf a b)]) ∧
      (crcOf (wordOf a b) ≠ c → Answered s t [0x01, 0x00])) ∧
  (∀ (s : State) (r : Request) (rest : List Byte), InFlight s r → r.bytes = 0x06 :: rest → rest.length ≠ 3 →
    StepRejects s [0x03]) ∧
  crcOf (wordOf 0x00 0x00) = 0x81

/-- The data word and the checksum of a write frame are a group that DECODE_WORD answers with that word (R101, R105), for
every word; with any other checksum byte the response is the failure alone, with no word in it (R107). DECODE_WORD runs
in any state with a right table, the one ENCODE_WRITE leaves among them. -/
def Obligations.WriteFrameDataDecodesToItself : Prop :=
  ∀ (s : State) (cmd data : Word), TableOk s →
    ∃ t c, exec (.encodeWrite cmd data) s = .next t ∧
      Answered s t [0x00, hi cmd, lo cmd, hi data, lo data, c] ∧ TableOk t ∧
      ∀ u : State, TableOk u →
        (∃ v, exec (.decodeWord (hi data) (lo data) c) u = .next v ∧ Answered u v [0x00, hi data, lo data]) ∧
        ∀ d : Byte, d ≠ c → ∃ v, exec (.decodeWord (hi data) (lo data) d) u = .next v ∧ Answered u v [0x01, 0x00]

/-- R109: `N = 0` or `N > NMAX` is answered `[0x03]`, whatever the bytes, without building the table. -/
def Obligations.DecodeWordsRefusesIllegalGroupCount : Prop :=
  ∀ (s : State) (n : Byte) (r : List Byte), n.toNat = 0 ∨ s.params.nmax < n.toNat →
    ∃ t, exec (.decodeWords n r) s = .next t ∧ Answered s t [0x03] ∧ TableKept s t

/-- R112: with a legal `N`, a byte count other than `3N` is answered `[0x02]`, and no group is examined: the table is as
it was. -/
def Obligations.DecodeWordsReportsMalformedResponse : Prop :=
  ∀ (s : State) (n : Byte) (r : List Byte), 1 ≤ n.toNat → n.toNat ≤ s.params.nmax → r.length ≠ 3 * n.toNat →
    ∃ t, exec (.decodeWords n r) s = .next t ∧ Answered s t [0x02] ∧ TableKept s t

/-- R113: where groups fail, the response is `[0x01, k]` with `k` the lowest failing index, and carries no word. -/
def Obligations.DecodeWordsReportsFirstBadGroup : Prop :=
  ∀ (s : State) (n : Byte) (r : List Byte) (k : Nat), TableOk s → 1 ≤ n.toNat → n.toNat ≤ s.params.nmax →
    r.length = 3 * n.toNat → k < n.toNat → ¬ groupGood r k → (∀ j, j < k → groupGood r j) →
    ∃ t, exec (.decodeWords n r) s = .next t ∧ Answered s t [0x01, BitVec.ofNat 8 k] ∧ TableBuilt s t

/-- R114 and R111: where every group passes, the response is `[0x00, N]` and the words in wire order, `2 + 2N` bytes, the
word of group `k` at result position `k`. -/
def Obligations.DecodeWordsAnswersWordsInWireOrder : Prop :=
  ∀ (s : State) (n : Byte) (r : List Byte), TableOk s → 1 ≤ n.toNat → n.toNat ≤ s.params.nmax →
    r.length = 3 * n.toNat → (∀ k, k < n.toNat → groupGood r k) →
    ∃ t bytes, exec (.decodeWords n r) s = .next t ∧ Answered s t bytes ∧ TableBuilt s t ∧
      bytes.length = 2 + 2 * n.toNat ∧ bytes.getD 0 0 = 0x00 ∧ bytes.getD 1 0 = n ∧
      ∀ k, k < n.toNat →
        bytes.getD (2 + 2 * k) 0 = r.getD (3 * k) 0 ∧ bytes.getD (2 + 2 * k + 1) 0 = r.getD (3 * k + 1) 0

/-- R115: DECODE_WORDS answers the words where DECODE_WORD answers each group's word, and the index of the first group
whose DECODE_WORD fails otherwise. -/
def Obligations.DecodeWordsAgreesWithDecodeWordPerGroup : Prop :=
  ∀ (s : State) (n : Byte) (r : List Byte), TableOk s → 1 ≤ n.toNat → n.toNat ≤ s.params.nmax →
    r.length = 3 * n.toNat →
    let good : Nat → Prop := fun k =>
      ∃ t, exec (.decodeWord (groupAt r k).1 (groupAt r k).2.1 (groupAt r k).2.2) s = .next t ∧
        Answered s t [0x00, (groupAt r k).1, (groupAt r k).2.1]
    let bad : Nat → Prop := fun k =>
      ∃ t, exec (.decodeWord (groupAt r k).1 (groupAt r k).2.1 (groupAt r k).2.2) s = .next t ∧
        Answered s t [0x01, 0x00]
    ((∀ k, k < n.toNat → good k) →
      ∃ t, exec (.decodeWords n r) s = .next t ∧ Answered s t (0x00 :: n :: wordsOf r n.toNat)) ∧
    (∀ k, k < n.toNat → bad k → (∀ j, j < k → good j) →
      ∃ t, exec (.decodeWords n r) s = .next t ∧ Answered s t [0x01, BitVec.ofNat 8 k])

/-- R69: the one operand that can be illegal is `N` of DECODE_WORDS: an operation is answered `[0x03]` exactly where it is
not `legal`, that is, where it is DECODE_WORDS with `N` outside 1..`NMAX`. -/
def Obligations.OnlyGroupCountCanBeIllegal : Prop :=
  ∀ (i : Instr) (s t : State), exec i s = .next t →
    (t.responses.getLast?.map Response.bytes = some [0x03] ↔ i.legal s.params = false)

/-! ### Errors -/

/-- R132: the status byte alone tells a failure from a result. It is 0x00 exactly where the request selects an operation,
its `N` is legal, its byte count is `3N` and no group fails; where one of these does not hold, it is the code of the
error that then applies, and what follows it is the error's info, with no data word: the index of the first failing
group for CHECKSUM_FAILURE, nothing for the others. -/
def Obligations.StatusByteTellsFailureFromResult : Prop :=
  ∀ (s t : State) (r : Request), TableOk s → InFlight s r → step s = .next t →
    ∃ status rest, t.responses = s.responses ++ [{ answers := some r, bytes := status :: rest }] ∧
      (status = 0x00 ↔ RequestSucceeds s.params r.bytes) ∧
      (status = 0x01 ↔ ∃ k, RequestHasBadGroup s.params r.bytes k) ∧
      (status = 0x02 ↔ RequestMalformed s.params r.bytes) ∧
      (status = 0x03 ↔ RequestIllegal s.params r.bytes) ∧
      (status = 0x00 ∨
        (status = 0x01 ∧ ∃ k, RequestHasBadGroup s.params r.bytes k ∧ rest = [BitVec.ofNat 8 k]) ∨
        (status = 0x02 ∧ rest = []) ∨ (status = 0x03 ∧ rest = []))

/-- R131: which operation raises which error once its request has decoded (a request that does not decode is answered
with ILLEGAL_OPERATION whatever its operation code: `WrongLengthAnswersIllegalOperation`): no error, but for
CHECKSUM_FAILURE of the two decode operations, and MALFORMED_RESPONSE and ILLEGAL_OPERATION of DECODE_WORDS; the index
of a failing DECODE_WORD is 0. -/
def Obligations.ErrorsAreRaisedByTheirOperations : Prop :=
  ∀ (i : Instr) (s t : State), exec i s = .next t →
    ∃ bytes, Answered s t bytes ∧
      (match i with
       | .decodeWord _ _ _ => (∃ result, bytes = 0x00 :: result) ∨ bytes = [0x01, 0x00]
       | .decodeWords _ _ =>
         (∃ result, bytes = 0x00 :: result) ∨ (∃ k, bytes = [0x01, k]) ∨ bytes = [0x02] ∨ bytes = [0x03]
       | _ => ∃ result, bytes = 0x00 :: result)

/-- R133, whole: of the errors that apply to one request exactly one is reported, the first in the order reserved
operation, wrong length, group count out of range, malformed response, lowest failing group. -/
def Obligations.FirstApplicableErrorIsReported : Prop :=
  ∀ (s : State) (r : Request), TableOk s → InFlight s r →
    (ReservedRequest r.bytes → StepRejects s [0x03]) ∧
    (¬ ReservedRequest r.bytes → WrongLength r.bytes → StepRejects s [0x03]) ∧
    (¬ WrongLength r.bytes → ∀ (n l : Byte) (body : List Byte), r.bytes = 0x07 :: n :: l :: body →
      (n.toNat = 0 ∨ s.params.nmax < n.toNat → StepRejects s [0x03]) ∧
      (1 ≤ n.toNat → n.toNat ≤ s.params.nmax → l.toNat ≠ 3 * n.toNat → StepRejects s [0x02]) ∧
      (1 ≤ n.toNat → n.toNat ≤ s.params.nmax → l.toNat = 3 * n.toNat →
        ∀ k, k < n.toNat → ¬ groupGood body k → (∀ j, j < k → groupGood body j) →
          ∃ t, step s = .next t ∧ Answered s t [0x01, BitVec.ofNat 8 k])) ∧
    (¬ WrongLength r.bytes → ∀ a b c : Byte, r.bytes = [0x06, a, b, c] → ¬ groupGood [a, b, c] 0 →
      ∃ t, step s = .next t ∧ Answered s t [0x01, 0x00])

/-- R134: an error writes no state but the lazy table build, and only CHECKSUM_FAILURE can follow a build. -/
def Obligations.ErrorsWriteNothingButTheLazyBuild : Prop :=
  ∀ (s t : State) (r : Request) (bytes : List Byte), TableOk s → InFlight s r → step s = .next t →
    t.responses = s.responses ++ [{ answers := some r, bytes := bytes }] →
    Answered s t bytes ∧
    (bytes = [0x02] ∨ bytes = [0x03] → TableKept s t) ∧
    (∀ k, bytes = [0x01, k] → TableBuilt s t)

/-- R135: no response is sticky: after any response the block is free, and a request presented then to an empty port is
accepted and answered as its own bytes determine. That it takes two steps is the model's choice (log entry 3). -/
def Obligations.NextRequestAfterAnyResponseIsServed : Prop :=
  ∀ (s : State) (r q : Request), TableOk s → InFlight s r → s.held = [] →
    ∃ t t1 t2, step s = .next t ∧ t.busy = false ∧ step (present q t) = .next t1 ∧ step t1 = .next t2 ∧
      t2.responses = t.responses ++ [{ answers := some q, bytes := responseOf s.params.nmax q.bytes }]
end

