-- ==== Sys2Proof/Laws/Bytes.lean ====
section
/-! SUPPORT. Words and their bytes (00_scope.md R8, 20_memory.md R42): taking a word apart and putting it together are
inverse to each other. -/

namespace Sys2Proof

@[simp] theorem hi_wordOf (h l : Byte) : hi (wordOf h l) = h := by
  ext i hlt
  have h8 : 8 + i < 16 := by omega
  simp [Sys2Proof.hi, wordOf, h8, BitVec.getLsbD_eq_getElem hlt]

@[simp] theorem lo_wordOf (h l : Byte) : lo (wordOf h l) = l := by
  ext i hlt
  have h16 : i < 16 := by omega
  simp [Sys2Proof.lo, wordOf, hlt, h16]

@[simp] theorem wordOf_hi_lo (w : Word) : wordOf (hi w) (lo w) = w := by
  ext i hlt
  rcases Nat.lt_or_ge i 8 with h | h
  · simp [Sys2Proof.hi, Sys2Proof.lo, wordOf, h, hlt]
  · have h8 : ¬ i < 8 := by omega
    have h3 : i - 8 < 8 := by omega
    have h4 : 8 + (i - 8) = i := by omega
    simp [Sys2Proof.hi, Sys2Proof.lo, wordOf, h8, h3, h4, hlt]

theorem wordBytes_wordOf (h l : Byte) : wordBytes (wordOf h l) = [h, l] := by simp [wordBytes]

@[simp] theorem wordBytes_length (w : Word) : (wordBytes w).length = 2 := rfl

end Sys2Proof
end

