-- ==== Sys2Proof/Laws/Memory.lean ====
section
/-! SUPPORT. The table's memory: a read after a write, and the canonical form, which every write of a table index
keeps. -/

namespace Sys2Proof.Machine

@[simp] theorem Memory.read?_write_same (m : Memory) (a : Nat) (v : Byte) :
    Memory.read? (Memory.write m a v) a = some v := by
  induction m with
  | nil => simp [write, read?]
  | cons c m ih =>
    obtain ⟨b, u⟩ := c
    simp only [write]
    split
    · simp [read?]
    · split
      · simp [read?]
      · next h1 h2 => simp [read?, h2, ih]

theorem Memory.read?_write_other (m : Memory) {a b : Nat} (h : b ≠ a) (v : Byte) :
    Memory.read? (Memory.write m a v) b = Memory.read? m b := by
  induction m with
  | nil => simp [write, read?, h]
  | cons c m ih =>
    obtain ⟨d, u⟩ := c
    simp only [write]
    split
    · simp [read?, h]
    · split
      · next h1 h2 => subst h2; simp [read?, h]
      · simp [read?, ih]

theorem Memory.wfFrom_write {m : Memory} {n a : Nat} (h : Memory.wfFrom n m = true) (hn : n ≤ a)
    (ha : a < Config.lutEntries) (v : Byte) : Memory.wfFrom n (Memory.write m a v) = true := by
  induction m generalizing n with
  | nil => simp [write, wfFrom, hn, ha]
  | cons c m ih =>
    obtain ⟨b, u⟩ := c
    simp only [wfFrom, Bool.and_eq_true, decide_eq_true_eq] at h
    obtain ⟨⟨h1, h2⟩, h3⟩ := h
    simp only [write]
    split
    · next hab => simp only [wfFrom, Bool.and_eq_true, decide_eq_true_eq]; exact ⟨⟨hn, ha⟩, ⟨hab, h2⟩, h3⟩
    · split
      · next hab => subst hab; simp only [wfFrom, Bool.and_eq_true, decide_eq_true_eq]; exact ⟨⟨hn, ha⟩, h3⟩
      · next hab hne =>
        simp only [wfFrom, Bool.and_eq_true, decide_eq_true_eq]
        exact ⟨⟨h1, h2⟩, ih h3 (by omega)⟩

/-- Every write of a table index keeps the canonical form. -/
theorem Memory.wf_write {m : Memory} (h : Memory.wf m = true) {a : Nat} (ha : a < Config.lutEntries) (v : Byte) :
    Memory.wf (Memory.write m a v) = true :=
  Memory.wfFrom_write h (Nat.zero_le a) ha v

theorem Memory.wf_nil : Memory.wf [] = true := rfl

/-- The build keeps the canonical form. -/
theorem buildEntries_wf {n : Nat} (hn : n ≤ Config.lutEntries) {m : Memory} (h : Memory.wf m = true) :
    Memory.wf (buildEntries n m) = true := by
  induction n generalizing m with
  | zero => rwa [buildEntries]
  | succ n ih =>
    rw [buildEntries]
    exact ih (by omega) (Memory.wf_write h (by omega) _)

/-- After the build's writes below `n`, an entry below `n` is `crc8_byte` of its index, and another is as before. -/
theorem buildEntries_read? (n : Nat) (m : Memory) (a : Nat) :
    Memory.read? (buildEntries n m) a =
      if a < n then some (crc8Byte (BitVec.ofNat 8 a)) else Memory.read? m a := by
  induction n generalizing m with
  | zero => simp [buildEntries]
  | succ n ih =>
    rw [buildEntries, ih]
    rcases Nat.lt_trichotomy a n with h | h | h
    · simp [h, Nat.lt_succ_of_lt h]
    · subst h; simp
    · rw [if_neg (by omega), if_neg (by omega), Memory.read?_write_other _ (by omega)]

end Sys2Proof.Machine
end

