-- ==== Sys2Proof/Laws/State.lean ====
section
/-! SUPPORT. One lemma per field for each update of the state, so that no later proof unfolds a record update. -/

namespace Sys2Proof.Machine

section respond
variable (b : List Byte) (s : State)
@[simp] theorem respond_lut : (respond b s).lut = s.lut := rfl
@[simp] theorem respond_tValid : (respond b s).tValid = s.tValid := rfl
@[simp] theorem respond_busy : (respond b s).busy = false := rfl
@[simp] theorem respond_inFlight : (respond b s).inFlight = none := rfl
@[simp] theorem respond_held : (respond b s).held = s.held := rfl
@[simp] theorem respond_responses :
    (respond b s).responses = s.responses ++ [{ answers := s.inFlight, bytes := b }] := rfl
@[simp] theorem respond_resetIn : (respond b s).resetIn = s.resetIn := rfl
@[simp] theorem respond_params : (respond b s).params = s.params := rfl
@[simp] theorem respond_lutEpoch : (respond b s).lutEpoch = s.lutEpoch := rfl
@[simp] theorem respond_grants : (respond b s).grants = s.grants := rfl
@[simp] theorem respond_lutRead (i : Byte) : lutRead (respond b s) i = lutRead s i := rfl
end respond

section buildTable
variable (s : State)
@[simp] theorem buildTable_lut : (buildTable s).lut = buildEntries Config.lutEntries s.lut := rfl
@[simp] theorem buildTable_tValid : (buildTable s).tValid = true := rfl
@[simp] theorem buildTable_busy : (buildTable s).busy = s.busy := rfl
@[simp] theorem buildTable_inFlight : (buildTable s).inFlight = s.inFlight := rfl
@[simp] theorem buildTable_held : (buildTable s).held = s.held := rfl
@[simp] theorem buildTable_responses : (buildTable s).responses = s.responses := rfl
@[simp] theorem buildTable_resetIn : (buildTable s).resetIn = s.resetIn := rfl
@[simp] theorem buildTable_params : (buildTable s).params = s.params := rfl
@[simp] theorem buildTable_lutEpoch : (buildTable s).lutEpoch = s.lutEpoch := rfl
@[simp] theorem buildTable_grants : (buildTable s).grants = s.grants := rfl
end buildTable

section ensureTable
variable (s : State)
theorem ensureTable_eq : ensureTable s = s ∨ ensureTable s = buildTable s := by
  unfold ensureTable; split <;> simp
@[simp] theorem ensureTable_tValid : (ensureTable s).tValid = true := by
  unfold ensureTable; split <;> simp [*]
@[simp] theorem ensureTable_busy : (ensureTable s).busy = s.busy := by
  obtain h | h := ensureTable_eq s <;> simp [h]
@[simp] theorem ensureTable_inFlight : (ensureTable s).inFlight = s.inFlight := by
  obtain h | h := ensureTable_eq s <;> simp [h]
@[simp] theorem ensureTable_held : (ensureTable s).held = s.held := by
  obtain h | h := ensureTable_eq s <;> simp [h]
@[simp] theorem ensureTable_responses : (ensureTable s).responses = s.responses := by
  obtain h | h := ensureTable_eq s <;> simp [h]
@[simp] theorem ensureTable_resetIn : (ensureTable s).resetIn = s.resetIn := by
  obtain h | h := ensureTable_eq s <;> simp [h]
@[simp] theorem ensureTable_params : (ensureTable s).params = s.params := by
  obtain h | h := ensureTable_eq s <;> simp [h]
@[simp] theorem ensureTable_lutEpoch : (ensureTable s).lutEpoch = s.lutEpoch := by
  obtain h | h := ensureTable_eq s <;> simp [h]
@[simp] theorem ensureTable_grants : (ensureTable s).grants = s.grants := by
  obtain h | h := ensureTable_eq s <;> simp [h]
theorem ensureTable_of_valid {s : State} (h : s.tValid = true) : ensureTable s = s := by
  simp [ensureTable, h]
theorem ensureTable_of_invalid {s : State} (h : s.tValid = false) : ensureTable s = buildTable s := by
  simp [ensureTable, h]
@[simp] theorem ensureTable_idem : ensureTable (ensureTable s) = ensureTable s :=
  ensureTable_of_valid (ensureTable_tValid s)
end ensureTable

section assertReset
variable (s : State)
@[simp] theorem assertReset_lut : (assertReset s).lut = [] := rfl
@[simp] theorem assertReset_tValid : (assertReset s).tValid = false := rfl
@[simp] theorem assertReset_busy : (assertReset s).busy = false := rfl
@[simp] theorem assertReset_inFlight : (assertReset s).inFlight = none := rfl
@[simp] theorem assertReset_held : (assertReset s).held = [] := rfl
@[simp] theorem assertReset_responses : (assertReset s).responses = s.responses := rfl
@[simp] theorem assertReset_resetIn : (assertReset s).resetIn = false := rfl
@[simp] theorem assertReset_params : (assertReset s).params = s.params := rfl
@[simp] theorem assertReset_lutEpoch : (assertReset s).lutEpoch = s.lutEpoch + 1 := rfl
@[simp] theorem assertReset_grants : (assertReset s).grants = s.grants := rfl
end assertReset

section accept
variable (r : Request) (s : State)
@[simp] theorem accept_lut : (accept r s).lut = s.lut := rfl
@[simp] theorem accept_tValid : (accept r s).tValid = s.tValid := rfl
@[simp] theorem accept_busy : (accept r s).busy = true := rfl
@[simp] theorem accept_inFlight : (accept r s).inFlight = some r := rfl
@[simp] theorem accept_held : (accept r s).held = s.held.erase r := rfl
@[simp] theorem accept_responses : (accept r s).responses = s.responses := rfl
@[simp] theorem accept_resetIn : (accept r s).resetIn = s.resetIn := rfl
@[simp] theorem accept_params : (accept r s).params = s.params := rfl
@[simp] theorem accept_lutEpoch : (accept r s).lutEpoch = s.lutEpoch := rfl
@[simp] theorem accept_grants : (accept r s).grants = s.grants + 1 := rfl
@[simp] theorem accept_lutRead (i : Byte) : lutRead (accept r s) i = lutRead s i := rfl
end accept

section present
variable (r : Request) (s : State)
@[simp] theorem present_lut : (present r s).lut = s.lut := rfl
@[simp] theorem present_tValid : (present r s).tValid = s.tValid := rfl
@[simp] theorem present_busy : (present r s).busy = s.busy := rfl
@[simp] theorem present_inFlight : (present r s).inFlight = s.inFlight := rfl
@[simp] theorem present_held : (present r s).held = s.held ++ [r] := rfl
@[simp] theorem present_responses : (present r s).responses = s.responses := rfl
@[simp] theorem present_resetIn : (present r s).resetIn = s.resetIn := rfl
@[simp] theorem present_params : (present r s).params = s.params := rfl
@[simp] theorem present_lutEpoch : (present r s).lutEpoch = s.lutEpoch := rfl
@[simp] theorem present_grants : (present r s).grants = s.grants := rfl
@[simp] theorem present_lutRead (i : Byte) : lutRead (present r s) i = lutRead s i := rfl
end present

section raiseReset
variable (s : State)
@[simp] theorem raiseReset_lut : (raiseReset s).lut = s.lut := rfl
@[simp] theorem raiseReset_tValid : (raiseReset s).tValid = s.tValid := rfl
@[simp] theorem raiseReset_busy : (raiseReset s).busy = s.busy := rfl
@[simp] theorem raiseReset_inFlight : (raiseReset s).inFlight = s.inFlight := rfl
@[simp] theorem raiseReset_held : (raiseReset s).held = s.held := rfl
@[simp] theorem raiseReset_responses : (raiseReset s).responses = s.responses := rfl
@[simp] theorem raiseReset_resetIn : (raiseReset s).resetIn = true := rfl
@[simp] theorem raiseReset_params : (raiseReset s).params = s.params := rfl
end raiseReset

section putInFlight
variable (r : Request) (s : State)
@[simp] theorem putInFlight_lut : (putInFlight r s).lut = s.lut := rfl
@[simp] theorem putInFlight_tValid : (putInFlight r s).tValid = s.tValid := rfl
@[simp] theorem putInFlight_busy : (putInFlight r s).busy = true := rfl
@[simp] theorem putInFlight_inFlight : (putInFlight r s).inFlight = some r := rfl
@[simp] theorem putInFlight_held : (putInFlight r s).held = s.held := rfl
@[simp] theorem putInFlight_responses : (putInFlight r s).responses = s.responses := rfl
@[simp] theorem putInFlight_resetIn : (putInFlight r s).resetIn = false := rfl
@[simp] theorem putInFlight_params : (putInFlight r s).params = s.params := rfl
@[simp] theorem putInFlight_lutRead (i : Byte) : lutRead (putInFlight r s) i = lutRead s i := rfl
end putInFlight

end Sys2Proof.Machine
end

