-- ==== Sys2Proof/Laws/Engine.lean ====
section
/-! SUPPORT. What the engine's shared functions can do (40_crc8_engine.md R80 to R82): the build makes every entry
right, the lazy build keeps a right table as it is, and the two lookups in a right table give the checksum. -/

namespace Sys2Proof.Machine

open Sys2Proof.Safety

/-- R80: after the build, every entry is `crc8_byte` of its index. -/
@[simp] theorem lutRead_buildTable (s : State) (i : Byte) : lutRead (buildTable s) i = crc8Byte i := by
  have hi : i.toNat < 256 := i.isLt
  simp [lutRead, buildEntries_read?, Config.lutEntries, hi]

/-- R81: after the lazy build, every entry is right. -/
theorem lutRead_ensureTable {s : State} (h : TableOk s) (i : Byte) : lutRead (ensureTable s) i = crc8Byte i := by
  cases hv : s.tValid with
  | true => rw [ensureTable_of_valid hv]; exact h hv i
  | false => rw [ensureTable_of_invalid hv, lutRead_buildTable]

/-- The two lookups in a right table (R82). -/
theorem lookupCrc_of_right {s : State} (h : ∀ i : Byte, lutRead s i = crc8Byte i) (w : Word) :
    lookupCrc s w = crcOf w := by
  simp [lookupCrc, h, crcOf]

/-- `crc8_word` (R82): its value and its state. -/
theorem crc8Word_eq {s : State} (h : TableOk s) (w : Word) : crc8Word w s = (crcOf w, ensureTable s) := by
  simp [crc8Word, lookupCrc_of_right (lutRead_ensureTable h)]

theorem crc8Word_snd (w : Word) (s : State) : (crc8Word w s).2 = ensureTable s := rfl

/-- The state after the lazy build is built, and it keeps a table that was there. -/
theorem tableBuilt_ensureTable {s : State} (h : TableOk s) : TableBuilt s (ensureTable s) :=
  ⟨ensureTable_tValid s, lutRead_ensureTable h, fun hv => by rw [ensureTable_of_valid hv]⟩

theorem tableOk_buildTable (s : State) : TableOk (buildTable s) := fun _ => lutRead_buildTable s

theorem tableOk_of_unbuilt {s : State} (h : s.tValid = false) : TableOk s := fun hv => by simp [h] at hv

/-- R80: a bit-shift is linear over XOR. -/
theorem crcShift_xor (c d : Byte) : crcShift (c ^^^ d) = crcShift c ^^^ crcShift d := by
  have hbit : (c ^^^ d).getLsbD 7 = (c.getLsbD 7 ^^ d.getLsbD 7) := by simp
  have hshift : (c ^^^ d) <<< 1 = c <<< 1 ^^^ d <<< 1 := BitVec.shiftLeft_xor_distrib ..
  have hswap : ∀ x y p : Byte, (x ^^^ y) ^^^ p = (x ^^^ p) ^^^ y := fun x y p => by
    rw [BitVec.xor_assoc, BitVec.xor_comm y p, ← BitVec.xor_assoc]
  simp only [crcShift, hbit, hshift]
  cases c.getLsbD 7 <;> cases d.getLsbD 7 <;> simp [hswap]
  · rw [BitVec.xor_assoc]
  · rw [BitVec.xor_assoc, ← BitVec.xor_assoc (49#8), BitVec.xor_comm (49#8), BitVec.xor_assoc,
      ← BitVec.xor_assoc _ (49#8) (49#8)]
    simp

/-- `crc8_byte` is linear over XOR. -/
theorem crc8Byte_xor (c d : Byte) : crc8Byte (c ^^^ d) = crc8Byte c ^^^ crc8Byte d := by
  simp [crc8Byte, crcShifts, crcShift_xor]

/-- What the lazy build can do (R81): nothing where the table is built, the whole build where it is not. -/
theorem ensureTable_cases (s : State) :
    (s.tValid = true ∧ ensureTable s = s) ∨ (s.tValid = false ∧ ensureTable s = buildTable s) := by
  cases h : s.tValid
  · exact .inr ⟨rfl, ensureTable_of_invalid h⟩
  · exact .inl ⟨rfl, ensureTable_of_valid h⟩

end Sys2Proof.Machine
end

