-- ==== Sys2Proof/Laws/Codec.lean ====
section
/-! SUPPORT. What the codec's shared functions can do (41_frame_codec.md R105, R108, R111): the groups of a buffer are
its triples of bytes, a group is judged by its own bytes, and the group loop finds the first bad group. -/

namespace Sys2Proof.Machine

open Sys2Proof.Safety

/-- R105: one group, judged by its own bytes alone. -/
theorem decodeGroup_eq {s : State} (h : TableOk s) (g : Group) :
    decodeGroup g s =
      (if crcOf (wordOf g.byteHi g.byteLo) = g.crc then some (wordOf g.byteHi g.byteLo) else none, ensureTable s) := by
  simp [decodeGroup, crc8Word_eq h]

theorem tableOk_ensureTable {s : State} (h : TableOk s) : TableOk (ensureTable s) := fun _ => lutRead_ensureTable h

/-- Group `k` stands at byte `3k` (R111). -/
theorem groupsOf_drop (r : List Byte) (k : Nat) (h : 3 * k + 3 ≤ r.length) :
    groupsOf (r.drop (3 * k)) =
      { byteHi := (groupAt r k).1, byteLo := (groupAt r k).2.1, crc := (groupAt r k).2.2 } ::
        groupsOf (r.drop (3 * (k + 1))) := by
  have e0 : r.drop (3 * k) = r[3 * k] :: r[3 * k + 1] :: r[3 * k + 2] :: r.drop (3 * (k + 1)) := by
    rw [List.drop_eq_getElem_cons (by omega), List.drop_eq_getElem_cons (by omega),
      List.drop_eq_getElem_cons (by omega)]
    congr 3
  have e1 : 3 * k < r.length := by omega
  have e2 : 3 * k + 1 < r.length := by omega
  have e3 : 3 * k + 2 < r.length := by omega
  rw [e0, groupsOf]
  simp [groupAt, List.getD_eq_getElem?_getD, e1, e2, e3]

theorem groupsOf_drop_end (r : List Byte) (k : Nat) (h : r.length = 3 * k) : groupsOf (r.drop (3 * k)) = [] := by
  rw [List.drop_of_length_le (by omega)]
  rfl

/-- The words' bytes of the groups `k .. k+n-1`. -/
def wordsFrom (r : List Byte) (k n : Nat) : List Byte :=
  (List.range' k n).flatMap (fun j => [(groupAt r j).1, (groupAt r j).2.1])

theorem wordsFrom_zero (r : List Byte) (n : Nat) : wordsFrom r 0 n = wordsOf r n := by
  rw [wordsFrom, wordsOf, List.range_eq_range']

/-- The group loop from group `k` of a buffer that ends after group `k+n-1` (R108, R113). -/
theorem decodeGroups_drop {r : List Byte} {k n : Nat} (hlen : r.length = 3 * (k + n)) {s : State} (h : TableOk s) :
    decodeGroups k (groupsOf (r.drop (3 * k))) s =
      ((match firstBad r k n with
        | some j => .error j
        | none => .ok (wordsFrom r k n)),
       if n = 0 then s else ensureTable s) := by
  induction n generalizing k s with
  | zero => rw [groupsOf_drop_end r k (by omega)]; rfl
  | succ n ih =>
    rw [groupsOf_drop r k (by omega), decodeGroups, decodeGroup_eq h]
    by_cases hg : crcOf (wordOf (groupAt r k).1 (groupAt r k).2.1) = (groupAt r k).2.2
    · have ih' := ih (k := k + 1) (by omega) (tableOk_ensureTable h)
      rw [if_pos hg, firstBad, if_pos hg]
      simp only [ih', ensureTable_idem, ite_self]
      cases firstBad r (k + 1) n <;> simp [wordsFrom, wordBytes, List.range'_succ]
    · simp [hg, firstBad]

/-- The group loop over a whole buffer of `n` groups (R108). -/
theorem decodeGroups_eq {r : List Byte} {n : Nat} (hlen : r.length = 3 * n) (hn : n ≠ 0) {s : State}
    (h : TableOk s) :
    decodeGroups 0 (groupsOf r) s =
      ((match firstBad r 0 n with
        | some j => .error j
        | none => .ok (wordsOf r n)), ensureTable s) := by
  have := decodeGroups_drop (r := r) (k := 0) (n := n) (by omega) h
  simpa [hn, wordsFrom_zero] using this

/-- No group of `k .. k+n-1` is bad where all are good, and only there. -/
theorem firstBad_eq_none_iff {r : List Byte} {k n : Nat} :
    firstBad r k n = none ↔ ∀ j, k ≤ j → j < k + n → groupGood r j := by
  induction n generalizing k with
  | zero =>
    refine ⟨fun _ j h1 h2 => absurd h2 (by omega), fun _ => rfl⟩
  | succ n ih =>
    by_cases hg : crcOf (wordOf (groupAt r k).1 (groupAt r k).2.1) = (groupAt r k).2.2
    · rw [firstBad, if_pos hg, ih]
      refine ⟨fun h j h1 h2 => ?_, fun h j h1 h2 => h j (by omega) (by omega)⟩
      rcases Nat.eq_or_lt_of_le h1 with rfl | h1
      · exact hg
      · exact h j h1 (by omega)
    · rw [firstBad, if_neg hg]
      exact ⟨fun h => (by cases h), fun h => absurd (h k (Nat.le_refl _) (by omega)) hg⟩

/-- The first bad group is the one below which all are good (R113). -/
theorem firstBad_eq_some {r : List Byte} {k n j : Nat} (h1 : k ≤ j) (h2 : j < k + n) (hb : ¬ groupGood r j)
    (hg : ∀ i, k ≤ i → i < j → groupGood r i) : firstBad r k n = some j := by
  induction n generalizing k with
  | zero => omega
  | succ n ih =>
    rcases Nat.eq_or_lt_of_le h1 with rfl | h1
    · exact if_neg hb
    · exact (if_pos (hg k (Nat.le_refl _) h1)).trans (ih h1 (by omega) (fun i hi => hg i (by omega)))

/-- What `firstBad` says of the index it answers: it lies in the range, its group fails, and none before it does. -/
theorem firstBad_spec {r : List Byte} {k n j : Nat} (h : firstBad r k n = some j) :
    k ≤ j ∧ j < k + n ∧ ¬ groupGood r j ∧ ∀ i, k ≤ i → i < j → groupGood r i := by
  induction n generalizing k with
  | zero => cases h
  | succ n ih =>
    by_cases hg : groupGood r k
    · obtain ⟨h1, h2, hb, h3⟩ := ih ((if_pos hg).symm.trans h)
      refine ⟨by omega, by omega, hb, fun i hi hij => ?_⟩
      rcases Nat.eq_or_lt_of_le hi with rfl | hi
      · exact hg
      · exact h3 i hi hij
    · obtain rfl : k = j := Option.some.inj ((if_neg hg).symm.trans h)
      exact ⟨Nat.le_refl _, by omega, hg, fun i _ _ => by omega⟩

/-- What the group loop leaves of the state, whatever the table holds. -/
theorem decodeGroups_state (k : Nat) (gs : List Group) (s : State) :
    (decodeGroups k gs s).2 = s ∨ (decodeGroups k gs s).2 = ensureTable s := by
  induction gs generalizing k s with
  | nil => exact .inl rfl
  | cons g gs ih =>
    have e : (decodeGroup g s).2 = ensureTable s := rfl
    right
    rw [decodeGroups]
    split
    · next h => rw [← e, h]
    · next w s1 h =>
      have e1 : s1 = ensureTable s := by rw [← e, h]
      subst e1
      have := ih (k + 1) (ensureTable s)
      split <;> · next h2 => simpa [h2] using this

end Sys2Proof.Machine
end

