-- ==== Sys2Proof/Laws/Exec.lean ====
section
/-! SUPPORT. What an operation can do, said once: it delivers one response and changes nothing else but the lazily built
table; and, where the table is right, the response is the function `resultOf` of its operands. -/

namespace Sys2Proof.Machine

open Sys2Proof.Safety

/-- Every operation answers a next state: the response of some bytes, after the lazy build or without it. -/
theorem exec_cases (i : Instr) (s : State) :
    ∃ b s1, (s1 = s ∨ s1 = ensureTable s) ∧ exec i s = .next (respond b s1) := by
  cases i with
  | build => exact ⟨_, _, .inr rfl, rfl⟩
  | checksum w => exact ⟨_, _, .inr rfl, rfl⟩
  | validate h l c => exact ⟨_, _, .inr rfl, rfl⟩
  | encodeWrite c d => exact ⟨_, _, .inr rfl, rfl⟩
  | encodeRead c => exact ⟨_, _, .inl rfl, rfl⟩
  | decodeWord a b c =>
    have e : (decodeGroup { byteHi := a, byteLo := b, crc := c } s).2 = ensureTable s := rfl
    simp only [exec, execDecodeWord]
    split
    · next w s1 h => exact ⟨_, s1, .inr (by rw [← e, h]), rfl⟩
    · next s1 h => exact ⟨_, s1, .inr (by rw [← e, h]), rfl⟩
  | decodeWords n r =>
    have e := decodeGroups_state 0 (groupsOf r) s
    simp only [exec, execDecodeWords]
    split
    · exact ⟨_, s, .inl rfl, rfl⟩
    · split
      · exact ⟨_, s, .inl rfl, rfl⟩
      · split
        · next out s1 h => exact ⟨_, s1, by simpa [h] using e, rfl⟩
        · next k s1 h => exact ⟨_, s1, by simpa [h] using e, rfl⟩

section results
variable {s : State} (h : TableOk s)
include h

theorem exec_checksum_eq (w : Word) :
    exec (.checksum w) s = .next (respond [0x00, crcOf w] (ensureTable s)) := by
  simp [exec, execChecksum, crc8Word_eq h, respondOk, okBytes, statusOk]

theorem exec_validate_eq (a b c : Byte) :
    exec (.validate a b c) s =
      .next (respond [0x00, if crcOf (wordOf a b) = c then 0x01 else 0x00] (ensureTable s)) := by
  simp [exec, execValidate, crc8Word_eq h, respondOk, okBytes, statusOk, boolByte]

theorem exec_encodeWrite_eq (cmd data : Word) :
    exec (.encodeWrite cmd data) s =
      .next (respond [0x00, hi cmd, lo cmd, hi data, lo data, crcOf data] (ensureTable s)) := by
  simp [exec, execEncodeWrite, crc8Word_eq h, respondOk, okBytes, statusOk, writeFrame, wordBytes]

theorem exec_decodeWord_eq (a b c : Byte) :
    exec (.decodeWord a b c) s =
      .next (respond (if crcOf (wordOf a b) = c then [0x00, a, b] else [0x01, 0x00]) (ensureTable s)) := by
  simp only [exec, execDecodeWord, decodeGroup_eq h]
  by_cases hc : crcOf (wordOf a b) = c <;>
    simp [hc, respondOk, okBytes, statusOk, raise, errorBytes, errorCode, errorInfo, wordBytes_wordOf]

theorem exec_decodeWords_eq (n : Byte) (r : List Byte) :
    exec (.decodeWords n r) s =
      .next (respond (resultOf s.params.nmax (.decodeWords n r))
        (if (n.toNat = 0 ∨ s.params.nmax < n.toNat) ∨ r.length ≠ 3 * n.toNat then s else ensureTable s)) := by
  simp only [exec, execDecodeWords, resultOf]
  by_cases h1 : n.toNat = 0 ∨ s.params.nmax < n.toNat
  · simp [h1, raise, errorBytes, errorCode, errorInfo]
  · by_cases h2 : r.length = 3 * n.toNat
    · have h0 : n.toNat ≠ 0 := fun e => h1 (.inl e)
      rw [decodeGroups_eq h2 h0 h]
      cases hb : firstBad r 0 n.toNat <;>
        simp [h1, h2, respondOk, okBytes, statusOk, raise, errorBytes, errorCode, errorInfo]
    · simp [h1, h2, raise, errorBytes, errorCode, errorInfo]

/-- Where the table is right, the response is a function of the operands alone (20_memory.md R48). -/
theorem exec_eq (i : Instr) :
    ∃ s1, (s1 = s ∨ s1 = ensureTable s) ∧ exec i s = .next (respond (resultOf s.params.nmax i) s1) := by
  cases i with
  | build => exact ⟨_, .inr rfl, rfl⟩
  | checksum w => exact ⟨_, .inr rfl, exec_checksum_eq h w⟩
  | validate a b c => exact ⟨_, .inr rfl, exec_validate_eq h a b c⟩
  | encodeWrite c d => exact ⟨_, .inr rfl, exec_encodeWrite_eq h c d⟩
  | encodeRead c => exact ⟨_, .inl rfl, rfl⟩
  | decodeWord a b c => exact ⟨_, .inr rfl, exec_decodeWord_eq h a b c⟩
  | decodeWords n r =>
    refine ⟨_, ?_, exec_decodeWords_eq h n r⟩
    split
    · exact .inl rfl
    · exact .inr rfl

end results

/-- A request in flight is answered: the response of some bytes, after the lazy build or without it. -/
theorem runRequest_cases (r : Request) (s : State) :
    ∃ b s1, (s1 = s ∨ s1 = ensureTable s) ∧ runRequest r s = .next (respond b s1) := by
  unfold runRequest
  split
  · exact exec_cases _ s
  · exact ⟨_, s, .inl rfl, rfl⟩

/-- Where the table is right, a request is answered by a function of its bytes alone (R48). -/
theorem runRequest_eq {s : State} (h : TableOk s) (r : Request) :
    ∃ s1, (s1 = s ∨ s1 = ensureTable s) ∧
      runRequest r s = .next (respond (responseOf s.params.nmax r.bytes) s1) := by
  unfold runRequest responseOf
  cases decode r.bytes with
  | some i => exact exec_eq h i
  | none => exact ⟨s, .inl rfl, rfl⟩

/-- What a response changes and what it does not, from the state it is delivered in. -/
theorem answered_respond {s s1 : State} (h : s1 = s ∨ s1 = ensureTable s) (b : List Byte) :
    Answered s (respond b s1) b := by
  rcases h with rfl | rfl <;> constructor <;> simp

theorem tableKept_respond (s : State) (b : List Byte) : TableKept s (respond b s) := ⟨rfl, rfl, fun _ => rfl⟩

theorem tableBuilt_respond {s : State} (h : TableOk s) (b : List Byte) : TableBuilt s (respond b (ensureTable s)) :=
  tableBuilt_ensureTable h

end Sys2Proof.Machine
end

