-- ==== Sys2Proof/Laws/PerInstr.lean ====
section
/-! SUPPORT. Facts about every instruction as syntax, one lemma per constructor. -/

namespace Sys2Proof.Laws.EncodeFits

/-- An encoded well-formed instruction begins with a defined operation code and has the length its format gives
(30_encoding.md R61, R67, R70). -/
def Statement (i : Instr) : Prop :=
  i.wf = true →
    ∃ op rest f, encode i = op :: rest ∧ formatOf op = some f ∧
      (encode i).length = formatLength f ((encode i).getD 2 0)

theorem build : Statement .build := fun _ => ⟨_, _, _, rfl, rfl, rfl⟩

theorem checksum (w : Word) : Statement (.checksum w) := fun _ => ⟨_, _, _, rfl, rfl, rfl⟩

theorem validate (high low crc : Byte) : Statement (.validate high low crc) := fun _ => ⟨_, _, _, rfl, rfl, rfl⟩

theorem encodeWrite (cmd data : Word) : Statement (.encodeWrite cmd data) := fun _ => ⟨_, _, _, rfl, rfl, rfl⟩

theorem encodeRead (cmd : Word) : Statement (.encodeRead cmd) := fun _ => ⟨_, _, _, rfl, rfl, rfl⟩

theorem decodeWord (b0 b1 b2 : Byte) : Statement (.decodeWord b0 b1 b2) := fun _ => ⟨_, _, _, rfl, rfl, rfl⟩

theorem decodeWords (n : Byte) (r : List Byte) : Statement (.decodeWords n r) := by
  intro h
  have hr : r.length ≤ 255 := by simpa [Instr.wf] using h
  refine ⟨0x07, n :: BitVec.ofNat 8 r.length :: r, .fv, rfl, rfl, ?_⟩
  have hm : r.length % 256 = r.length := Nat.mod_eq_of_lt (by omega)
  simp [encode, formatLength, hm]
  omega

end Sys2Proof.Laws.EncodeFits
end

