-- ==== Sys2Proof/Laws/Port.lean ====
section
/-! SUPPORT. What the port and a step can do (30_encoding.md R60, 60_exceptions.md R144, 70_reset_and_hazards.md
R150). -/

namespace Sys2Proof.Machine

open Sys2Proof.Safety

/-- A candidate is the oldest held request of its requester. -/
theorem candidates_split {held : List Request} {r : Request} (h : r ∈ candidates held) :
    ∃ l1 l2, held = l1 ++ r :: l2 ∧ ∀ q ∈ l1, q.requester ≠ r.requester := by
  induction held with
  | nil => simp [candidates] at h
  | cons a held ih =>
    simp only [candidates, List.mem_cons, List.mem_filter, bne_iff_ne, ne_eq] at h
    rcases h with rfl | ⟨hm, hne⟩
    · exact ⟨[], held, rfl, by simp⟩
    · obtain ⟨l1, l2, rfl, hl⟩ := ih hm
      refine ⟨a :: l1, l2, rfl, ?_⟩
      intro q hq
      rcases List.mem_cons.mp hq with rfl | hq
      · exact fun e => hne e.symm
      · exact hl q hq

theorem candidates_eq_nil {held : List Request} : candidates held = [] ↔ held = [] := by
  cases held <;> simp [candidates]

theorem nextRequest_mem {s : State} {r : Request} (h : nextRequest s = some r) : r ∈ candidates s.held := by
  unfold nextRequest at h
  split at h
  · cases h
  · next a e => cases h; rw [e]; exact List.mem_singleton.mpr rfl
  · next a l hl e => rw [e]; exact List.mem_of_getElem? h

theorem nextRequest_none {s : State} (h : s.held = []) : nextRequest s = none := by
  simp [nextRequest, h, candidates]

/-- Where a request is held, one is accepted: the oldest of its requester. -/
theorem nextRequest_some {s : State} (h : s.held ≠ []) :
    ∃ r l1 l2, nextRequest s = some r ∧ s.held = l1 ++ r :: l2 ∧ ∀ q ∈ l1, q.requester ≠ r.requester := by
  have hex : ∃ r, nextRequest s = some r := by
    unfold nextRequest
    split
    · next e => exact absurd (candidates_eq_nil.mp e) h
    · exact ⟨_, rfl⟩
    · next a l hl e =>
      have hlt : Config.arbiter s.grants % (l.length + 1) < (a :: l).length := Nat.mod_lt _ (Nat.succ_pos _)
      exact ⟨_, List.getElem?_eq_getElem hlt⟩
  obtain ⟨r, hr⟩ := hex
  obtain ⟨l1, l2, e, hl⟩ := candidates_split (nextRequest_mem hr)
  exact ⟨r, l1, l2, hr, e, hl⟩

/-- Requests of one requester are taken in the order it presented them. -/
theorem nextRequest_single {s : State} {r : Request} {rs : List Request} (h : s.held = r :: rs)
    (hq : ∀ q ∈ rs, q.requester = r.requester) : nextRequest s = some r := by
  obtain ⟨r', l1, l2, hn, e, hl⟩ := nextRequest_some (s := s) (by simp [h])
  rw [hn]
  cases l1 with
  | nil => simp_all
  | cons a l1 =>
    rw [h] at e
    simp only [List.cons_append, List.cons.injEq] at e
    obtain ⟨rfl, rfl⟩ := e
    exact absurd (hq r' (by simp)).symm (hl r (by simp))

/-- The accepted request leaves the port, and the others stay in their order. -/
theorem erase_split {l1 l2 : List Request} {r : Request} (h : ∀ q ∈ l1, q.requester ≠ r.requester) :
    (l1 ++ r :: l2).erase r = l1 ++ l2 := by
  have : r ∉ l1 := fun hm => h r hm rfl
  rw [List.erase_append_right _ this, List.erase_cons_head]

theorem step_of_reset {s : State} (h : s.resetIn = true) : step s = .next (assertReset s) := by
  simp [step, h]

theorem step_of_inFlight {s : State} {r : Request} (h : InFlight s r) : step s = runRequest r s := by
  obtain ⟨h1, h2, h3⟩ := h
  simp [step, h1, h2, runInFlight, h3]

theorem step_of_idle {s : State} (h1 : s.resetIn = false) (h2 : s.busy = false) :
    step s = .next (acceptNext s) := by
  simp [step, h1, h2]

/-- What a step can do, said once: it resets, or delivers the response of the request in flight, or accepts the oldest
held request of some requester, or leaves the state as it is. -/
theorem step_cases (s : State) :
    (s.resetIn = true ∧ step s = .next (assertReset s)) ∨
    (∃ r, InFlight s r ∧ ∃ b s1, (s1 = s ∨ s1 = ensureTable s) ∧ step s = .next (respond b s1)) ∨
    (s.resetIn = false ∧ s.busy = false ∧ ∃ r l1 l2, s.held = l1 ++ r :: l2 ∧
      (∀ q ∈ l1, q.requester ≠ r.requester) ∧ step s = .next (accept r s)) ∨
    (s.resetIn = false ∧ step s = .next s) := by
  cases h1 : s.resetIn with
  | true => exact .inl ⟨rfl, step_of_reset h1⟩
  | false =>
    right
    cases h2 : s.busy with
    | true =>
      cases h3 : s.inFlight with
      | some r =>
        have hf : InFlight s r := ⟨h1, h2, h3⟩
        obtain ⟨b, s1, hs, he⟩ := runRequest_cases r s
        exact .inl ⟨r, hf, b, s1, hs, by rw [step_of_inFlight hf, he]⟩
      | none => exact .inr (.inr ⟨rfl, by simp [step, h1, h2, runInFlight, h3]⟩)
    | false =>
      right
      rw [step_of_idle h1 h2]
      rcases eq_or_ne s.held [] with h | h
      · exact .inr ⟨rfl, by rw [acceptNext, nextRequest_none h]⟩
      · obtain ⟨r, l1, l2, hn, e, hl⟩ := nextRequest_some h
        exact .inl ⟨rfl, rfl, r, l1, l2, e, hl, by rw [acceptNext, hn]⟩

end Sys2Proof.Machine
end

