-- ==== Sys2Proof/Tests/Slice0.lean ====
section
/-! SUPPORT. The model's own tests. The expected values are those of spec/95_test_vectors.md (the vector's name stands in
each docstring) or are written out from the encodings of spec/30_encoding.md. The second half shows, for every statement
with hypotheses, a concrete state and operands that meet all of them. -/

namespace Sys2Proof.Tests

open Sys2Proof.Machine Sys2Proof.Safety

/-! ### Helpers -/

/-- A block just after reset with a request in flight. -/
def fresh (bytes : List Byte) : State := putInFlight { requester := 1, bytes := bytes } State.reset

/-- The same with the table built. -/
def built (bytes : List Byte) : State := putInFlight { requester := 1, bytes := bytes } (buildTable State.reset)

/-- The bytes of the responses delivered after one step. -/
def answers (s : State) : List (List Byte) :=
  match step s with
  | .next t => t.responses.map Response.bytes
  | .fault _ => []
  | .refused _ => []

/-- `T_VALID` after one step. -/
def validAfter (s : State) : Bool :=
  match step s with
  | .next t => t.tValid
  | .fault _ => false
  | .refused _ => false

/-- The 18 bytes of the measurement fixture W5. -/
def w5 : List Byte :=
  [0x43, 0xC8, 0xDB, 0x40, 0x00, 0x08, 0x41, 0xC8, 0x02, 0x00, 0x00, 0x81, 0x42, 0x48, 0x55, 0x00, 0x00, 0x81]

/-- W5 with bit 0 of its last byte flipped (DS-3). -/
def w5bad : List Byte :=
  [0x43, 0xC8, 0xDB, 0x40, 0x00, 0x08, 0x41, 0xC8, 0x02, 0x00, 0x00, 0x81, 0x42, 0x48, 0x55, 0x00, 0x00, 0x80]

/-! ### Well-formedness -/

/-- R68: `L` has 8 bits, so 256 bytes are too many, and 255 are not. -/
theorem test_wf_refuses_256_bytes :
    (Instr.decodeWords 1 (List.replicate 256 0)).wf = false ∧
    (Instr.decodeWords 1 (List.replicate 255 0)).wf = true := by decide +kernel

/-- R69: `N` is legal from 1 to `NMAX`. -/
theorem test_legal_count :
    (Instr.decodeWords 0 []).legal .default = false ∧ (Instr.decodeWords 1 []).legal .default = true ∧
    (Instr.decodeWords 6 []).legal .default = true ∧ (Instr.decodeWords 7 []).legal .default = false := by decide

/-! ### Decoding -/

/-- One word per operation, from R62 and R65, with every operand byte different. -/
theorem test_decode_words :
    decode [0x01] = some .build ∧ decode [0x02, 0x12, 0x34] = some (.checksum 0x1234) ∧
    decode [0x03, 0x12, 0x34, 0x37] = some (.validate 0x12 0x34 0x37) ∧
    decode [0x04, 0x12, 0x34, 0x56, 0x78] = some (.encodeWrite 0x1234 0x5678) ∧
    decode [0x05, 0x03, 0x00] = some (.encodeRead 0x0300) ∧
    decode [0x06, 0x12, 0x34, 0x37] = some (.decodeWord 0x12 0x34 0x37) ∧
    decode [0x07, 0x05, 0x02, 0x12, 0x34] = some (.decodeWords 0x05 [0x12, 0x34]) := by decide

/-- X-1 to X-5, DS-12, DS-13, BU-3, CK-14, CK-15 and ER-6: refused by the decoder. -/
theorem test_decode_refuses :
    decode [] = none ∧ decode [0x00] = none ∧ decode [0x08] = none ∧ decode [0xFF, 0x01, 0x02] = none ∧
    decode [0x00, 0x02, 0x02] = none ∧ decode [0x07, 0x01, 0x03, 0x00, 0x00] = none ∧ decode [0x07, 0x01] = none ∧
    decode [0x01, 0x00] = none ∧ decode [0x02, 0x00] = none ∧ decode [0x02, 0x00, 0x00, 0x00] = none ∧
    decode [0x05, 0x00, 0x10, 0x00, 0x00] = none := by decide

/-- Opcode-table words: bit 0 is the least significant bit of the first byte; bits above `nbits` are zero. -/
theorem test_decodeTableWord :
    decodeTableWord 8 0x01 = some .build ∧ decodeTableWord 24 0xEFBE02 = some (.checksum 0xBEEF) ∧
    decodeTableWord 8 0x04 = some (.encodeWrite 0x0000 0x0000) ∧ decodeTableWord 8 0x07 = some (.decodeWords 0 []) ∧
    decodeTableWord 24 0x020107 = some (.decodeWords 1 [0x00, 0x00]) ∧ decodeTableWord 8 0x08 = none := by decide

/-- The request syntax of R71. -/
theorem test_text :
    (Instr.encodeWrite 0x0010 0x02BC).text = "ENCODE_WRITE 0x0010, 0x02BC".toList ∧
    (PseudoOp.decode_words 1 [0x00, 0x00, 0x81]).expand.text = "DECODE_WORDS 0x01, [0x00, 0x00, 0x81]".toList := by
  decide +kernel

/-! ### The operations -/

/-- The build traces of section 2.1. -/
theorem test_table_entries :
    crc8Byte 0x00 = 0x00 ∧ crc8Byte 0x01 = 0x31 ∧ crc8Byte 0x80 = 0x7A ∧ crc8Byte 0xFF = 0xAC ∧
    crc8Byte 0x7E = 0xE7 := by decide +kernel

/-- BU-1. -/
theorem test_build_after_reset : answers (fresh [0x01]) = [[0x00]] ∧ validAfter (fresh [0x01]) = true := by
  decide +kernel

/-- BU-2: `T_VALID` stays 1, and the table is the one that was there. -/
theorem test_build_again : answers (built [0x01]) = [[0x00]] ∧ validAfter (built [0x01]) = true := by decide +kernel

/-- CK-1: the lazy build, and the zero word. -/
theorem test_checksum_zero : answers (fresh [0x02, 0x00, 0x00]) = [[0x00, 0x81]] ∧
    validAfter (fresh [0x02, 0x00, 0x00]) = true := by decide +kernel

/-- CK-9: both bytes count, in order. -/
theorem test_checksum_beef : answers (built [0x02, 0xBE, 0xEF]) = [[0x00, 0x92]] := by decide +kernel

/-- VA-1. -/
theorem test_validate_good : answers (fresh [0x03, 0xBE, 0xEF, 0x92]) = [[0x00, 0x01]] := by decide +kernel

/-- VA-11: a failed check is a result. -/
theorem test_validate_bad : answers (built [0x03, 0x00, 0x00, 0xC1]) = [[0x00, 0x00]] := by decide +kernel

/-- EW-1, the source's wire fixture W1. -/
theorem test_encode_write_fixture :
    answers (fresh [0x04, 0x00, 0x10, 0x00, 0x00]) = [[0x00, 0x00, 0x10, 0x00, 0x00, 0x81]] := by decide +kernel

/-- EW-8: the checksum covers the data word. -/
theorem test_encode_write_data_checksum :
    answers (built [0x04, 0xD1, 0x00, 0xBE, 0xEF]) = [[0x00, 0xD1, 0x00, 0xBE, 0xEF, 0x92]] := by decide +kernel

/-- ER-1: no build. -/
theorem test_encode_read : answers (fresh [0x05, 0x02, 0x02]) = [[0x00, 0x02, 0x02]] ∧
    validAfter (fresh [0x05, 0x02, 0x02]) = false := by decide +kernel

/-- ER-6: a wrong length. -/
theorem test_encode_read_long : answers (fresh [0x05, 0x00, 0x10, 0x00, 0x00]) = [[0x03]] := by decide +kernel

/-- DW-5. -/
theorem test_decode_word_good : answers (fresh [0x06, 0x43, 0xC8, 0xDB]) = [[0x00, 0x43, 0xC8]] := by decide +kernel

/-- DW-2, and P4 step 4: the build happens before the failure is found. -/
theorem test_decode_word_bad : answers (fresh [0x06, 0x00, 0x00, 0x00]) = [[0x01, 0x00]] ∧
    validAfter (fresh [0x06, 0x00, 0x00, 0x00]) = true := by decide +kernel

/-- DS-2 and DS-3. -/
theorem test_decode_words_fixture :
    answers (built (0x07 :: 0x06 :: 0x12 :: w5)) =
      [[0x00, 0x06, 0x43, 0xC8, 0x40, 0x00, 0x41, 0xC8, 0x00, 0x00, 0x42, 0x48, 0x00, 0x00]] ∧
    answers (built (0x07 :: 0x06 :: 0x12 :: w5bad)) = [[0x01, 0x05]] := by decide +kernel

/-- DS-14, DS-15 and P4 step 2: the priorities, and no build. -/
theorem test_decode_words_priority :
    answers (fresh [0x07, 0x07, 0x03, 0x00, 0x00, 0x81]) = [[0x03]] ∧
    answers (fresh [0x07, 0x02, 0x05, 0x00, 0x00, 0x00, 0x00, 0x00]) = [[0x02]] ∧
    validAfter (fresh [0x07, 0x01, 0x00]) = false := by decide +kernel

/-- X-4: an empty request. -/
theorem test_empty_request : answers (fresh []) = [[0x03]] ∧ validAfter (fresh []) = false := by decide +kernel

/-- P4 step 5: reset while a CHECKSUM is in flight. -/
theorem test_reset_in_flight : answers (raiseReset (built [0x02, 0xBE, 0xEF])) = [] ∧
    validAfter (raiseReset (built [0x02, 0xBE, 0xEF])) = false := by decide +kernel

/-- R60: a presented request is accepted, and one presented meanwhile is held. -/
theorem test_accept :
    (match step (present { requester := 1, bytes := [0x01] } State.reset) with
      | .next t => t.busy && decide (t.inFlight = some { requester := 1, bytes := [0x01] }) && t.held.isEmpty
      | .fault _ => false
      | .refused _ => false) = true := by decide

/-- The table's memory: a write keeps the addresses rising, and replaces what stands at its own. -/
theorem test_memory_write :
    Memory.write [(1, 0x31), (4, 0xC4)] 2 0x62 = [(1, 0x31), (2, 0x62), (4, 0xC4)] ∧
    Memory.write [(1, 0x31), (4, 0xC4)] 4 0x00 = [(1, 0x31), (4, 0x00)] ∧
    Memory.wf [(4, 0xC4), (1, 0x31)] = false ∧ Memory.wf [(256, 0x00)] = false := by decide

/-! ### Witnesses: states and operands that meet the hypotheses of the statements -/

theorem fresh_inFlight (b : List Byte) : InFlight (fresh b) { requester := 1, bytes := b } := ⟨rfl, rfl, rfl⟩

theorem built_inFlight (b : List Byte) : InFlight (built b) { requester := 1, bytes := b } := ⟨rfl, rfl, rfl⟩

theorem fresh_tableOk (b : List Byte) : TableOk (fresh b) := tableOk_of_unbuilt rfl

theorem built_tableOk (b : List Byte) : TableOk (built b) := fun _ i => lutRead_buildTable State.reset i

/-- The premises that the statements about a request in flight share, for `fresh b`. -/
def Ready (b : List Byte) : Prop := TableOk (fresh b) ∧ InFlight (fresh b) { requester := 1, bytes := b }

theorem ready (b : List Byte) : Ready b := ⟨fresh_tableOk b, fresh_inFlight b⟩

theorem fresh_inv (b : List Byte) : BlockInv (fresh b) where
  memory := rfl
  table := fresh_tableOk b
  whole := fun _ => rfl
  busy := rfl
  params := (by decide : State.reset.params.ok)

theorem built_inv (b : List Byte) : BlockInv (built b) where
  memory := buildEntries_wf (Nat.le_refl _) Memory.wf_nil
  table := built_tableOk b
  whole := fun h => absurd h (by simp [built])
  busy := rfl
  params := (by decide : State.reset.params.ok)

/-- Two requesters wait at an idle block, one of them with two requests. -/
def waiting : State :=
  present { requester := 1, bytes := [0x01] }
    (present { requester := 2, bytes := [0x05, 0x02, 0x02] }
      (present { requester := 1, bytes := [0x02, 0x00, 0x00] } State.reset))

/-- One requester waits with two requests. -/
def waitingOne : State :=
  present { requester := 1, bytes := [0x01] } (present { requester := 1, bytes := [0x02, 0x00, 0x00] } State.reset)

theorem waitingOne_inv : BlockInv waitingOne where
  memory := rfl
  table := tableOk_of_unbuilt rfl
  whole := fun _ => rfl
  busy := rfl
  params := by decide

theorem witness_DecodeOfEncodeIsIdentity : (Instr.decodeWords 0xFF (List.replicate 255 0xFF)).wf = true := by
  decide +kernel

theorem witness_EncodeOfDecodeIsIdentity : decode [0x07, 0x00, 0x00] = some (.decodeWords 0 []) := by decide

theorem witness_StepExecutesDecodedInstruction :
    InFlight (fresh [0x02, 0xBE, 0xEF]) { requester := 1, bytes := [0x02, 0xBE, 0xEF] } ∧
    decode [0x02, 0xBE, 0xEF] = some (.checksum 0xBEEF) := ⟨fresh_inFlight _, by decide⟩

theorem witness_PortAcceptsExecutesAndHolds :
    (Idle waiting ∧ waiting.held ≠ []) ∧ InFlight (built [0x01]) { requester := 1, bytes := [0x01] } ∧
    decode [0x01] = some .build :=
  ⟨⟨⟨rfl, rfl, rfl⟩, by decide⟩, built_inFlight _, rfl⟩

theorem witness_IdleBlockWaitsUnchanged : Idle State.reset ∧ State.reset.held = [] := ⟨⟨rfl, rfl, rfl⟩, rfl⟩

theorem witness_EveryOperationEnds : InFlight (fresh []) { requester := 1, bytes := [] } := fresh_inFlight _

theorem witness_ReservedRequestsAnswerIllegalOperation :
    (InFlight (fresh []) { requester := 1, bytes := [] } ∧ ReservedRequest []) ∧
    (InFlight (built [0x00]) { requester := 1, bytes := [0x00] } ∧ ReservedRequest [0x00]) ∧
    (InFlight (built [0x08]) { requester := 1, bytes := [0x08] } ∧ ReservedRequest [0x08]) ∧
    (InFlight (built [0xFF, 0x01]) { requester := 1, bytes := [0xFF, 0x01] } ∧ ReservedRequest [0xFF, 0x01]) :=
  ⟨⟨fresh_inFlight _, .inl rfl⟩, ⟨built_inFlight _, .inr ⟨_, _, rfl, by decide⟩⟩,
    ⟨built_inFlight _, .inr ⟨_, _, rfl, by decide⟩⟩, ⟨built_inFlight _, .inr ⟨_, _, rfl, by decide⟩⟩⟩

theorem witness_WrongLengthAnswersIllegalOperation :
    (∀ b, InFlight (fresh b) { requester := 1, bytes := b }) ∧
    WrongLength [0x01, 0x00] ∧ WrongLength [0x02, 0x00] ∧ WrongLength [0x03] ∧ WrongLength [0x04, 0x00, 0x10] ∧
    WrongLength [0x05, 0x00, 0x10, 0x00, 0x00] ∧ WrongLength [0x06, 0x00, 0x00] ∧ WrongLength [0x07, 0x01] ∧
    WrongLength [0x07, 0x01, 0x03, 0x00, 0x00] := by
  refine ⟨fresh_inFlight, ?_, ?_, ?_, ?_, ?_, ?_, ?_, ?_⟩ <;> exact ⟨_, _, rfl, by decide⟩

theorem witness_StepKeepsInvariant : BlockInv (built [0x01]) ∧ ∃ t, step (built [0x01]) = .next t :=
  ⟨built_inv _, _, rfl⟩

theorem witness_DeliveredResponsesAreFunctionsOfRequests :
    BlockInv (fresh [0x01]) ∧ HistoryOk (fresh [0x01]) ∧ ∃ t, step (fresh [0x01]) = .next t :=
  ⟨fresh_inv _, fun _ h => absurd h List.not_mem_nil, _, rfl⟩

theorem witness_TableStaysRightAndUnchanged :
    (TableOk (built [0x01]) ∧ (built [0x01]).tValid = true ∧ (built [0x01]).resetIn = false ∧
      ∃ t, step (built [0x01]) = .next t) ∧ (fresh [0x01]).tValid = false :=
  ⟨⟨built_tableOk _, rfl, rfl, _, rfl⟩, rfl⟩

theorem witness_OnlyTableWriteIsTheOneTimeBuild : ∃ t, exec (.checksum 0xBEEF) State.reset = .next t := ⟨_, rfl⟩

theorem witness_ResponsesDoNotRevealTheTable :
    TableOk State.reset ∧
    TableOk { State.reset with lut := (buildTable State.reset).lut, tValid := true } :=
  ⟨tableOk_of_unbuilt rfl, fun _ i => lutRead_buildTable State.reset i⟩

theorem witness_SameRequestBytesSameResponse :
    TableOk (fresh [0x01]) ∧ TableOk (built [0x01]) ∧ InFlight (fresh [0x01]) { requester := 1, bytes := [0x01] } ∧
    InFlight (built [0x01]) { requester := 1, bytes := [0x01] } ∧ (fresh [0x01]).params = (built [0x01]).params :=
  ⟨fresh_tableOk _, built_tableOk _, fresh_inFlight _, built_inFlight _, rfl⟩

theorem witness_RunDeliversEveryResponseInOrder :
    BlockInv waitingOne ∧ Idle waitingOne ∧ (∀ r ∈ waitingOne.held, r.requester = 1) ∧ waitingOne.held.length = 2 :=
  ⟨waitingOne_inv, ⟨rfl, rfl, rfl⟩, by decide, rfl⟩

theorem witness_ParametersNeverChange : ∃ t, step (raiseReset State.reset) = .next t := ⟨_, rfl⟩

theorem witness_ResetInputGivesResetValues : (raiseReset (built [0x01])).resetIn = true := rfl

theorem witness_ResetAbandonsRequestInFlight :
    TableOk (built [0x02, 0xBE, 0xEF]) ∧
    InFlight (built [0x02, 0xBE, 0xEF]) { requester := 1, bytes := [0x02, 0xBE, 0xEF] } :=
  ⟨built_tableOk _, built_inFlight _⟩

/-- For every statement whose premise is that the table is right: it holds built and unbuilt. -/
theorem witness_TableOk : TableOk State.reset ∧ TableOk (buildTable State.reset) :=
  ⟨tableOk_of_unbuilt rfl, tableOk_buildTable _⟩

theorem witness_BuildBuildsTheTableOnce :
    TableOk State.reset ∧ InFlight (fresh [0x01, 0x00]) { requester := 1, bytes := [0x01, 0x00] } ∧ [(0x00 : Byte)] ≠ [] :=
  ⟨tableOk_of_unbuilt rfl, fresh_inFlight _, by decide⟩

theorem witness_BuildIsDeterministicAndIdempotent :
    (∃ t u, exec .build State.reset = .next t ∧ exec .build t = .next u) ∧ State.reset.tValid = false :=
  ⟨⟨_, _, rfl, rfl⟩, rfl⟩

theorem witness_StartupBuildChangesNoResponse : TableOk (fresh [0x05, 0x02, 0x02]) := fresh_tableOk _

theorem witness_ChecksumAnswersTheChecksum :
    TableOk State.reset ∧ InFlight (fresh [0x02, 0x00]) { requester := 1, bytes := 0x02 :: [0x00] } ∧
    [(0x00 : Byte)].length ≠ 2 := ⟨tableOk_of_unbuilt rfl, fresh_inFlight _, by decide⟩

theorem witness_ValidateAnswersWhetherChecksumMatches :
    TableOk State.reset ∧ crcOf (wordOf 0xFF 0x00) = 0x00 ∧ crcOf (wordOf 0x00 0x00) ≠ 0x00 ∧
    InFlight (fresh [0x03]) { requester := 1, bytes := 0x03 :: [] } ∧ ([] : List Byte).length ≠ 3 :=
  ⟨tableOk_of_unbuilt rfl, by decide +kernel, by decide +kernel, fresh_inFlight _, by decide⟩

theorem witness_ValidateAcceptsExactlyTheChecksum :
    TableOk State.reset ∧ TableOk (built [0x03, 0x00, 0x00, 0x00]) ∧ (0x00 : Byte) ≠ crcOf 0x0000 :=
  ⟨tableOk_of_unbuilt rfl, built_tableOk _, by decide +kernel⟩

theorem witness_SingleBitCorruptionIsDetected : TableOk State.reset ∧ 0 < 24 ∧ 23 < 24 :=
  ⟨tableOk_of_unbuilt rfl, by decide, by decide⟩

theorem witness_TwoBitCorruptionIsDetected : TableOk State.reset ∧ 0 < 24 ∧ 23 < 24 ∧ 0 ≠ 23 :=
  ⟨tableOk_of_unbuilt rfl, by decide, by decide, by decide⟩

theorem witness_TableLookupsComputeBitSerialCrc : TableOk (buildTable State.reset) := tableOk_buildTable _

theorem witness_EncodeWriteAnswersTheWriteFrame :
    TableOk State.reset ∧ InFlight (fresh [0x04, 0x00, 0x10]) { requester := 1, bytes := 0x04 :: [0x00, 0x10] } ∧
    [(0x00 : Byte), 0x10].length ≠ 4 := ⟨tableOk_of_unbuilt rfl, fresh_inFlight _, by decide⟩

theorem witness_CommandWordNeverEntersTheChecksum : TableOk State.reset := tableOk_of_unbuilt rfl

theorem witness_EncodeReadAnswersTheBareFrame :
    InFlight (fresh [0x05, 0x00]) { requester := 1, bytes := 0x05 :: [0x00] } ∧ [(0x00 : Byte)].length ≠ 2 :=
  ⟨fresh_inFlight _, by decide⟩

theorem witness_DecodeWordAnswersWordOrFailure :
    TableOk State.reset ∧ crcOf (wordOf 0xFF 0xFF) = 0xAC ∧ crcOf (wordOf 0xBE 0xEF) ≠ 0x12 ∧
    InFlight (fresh [0x06, 0x00, 0x00]) { requester := 1, bytes := 0x06 :: [0x00, 0x00] } ∧
    [(0x00 : Byte), 0x00].length ≠ 3 :=
  ⟨tableOk_of_unbuilt rfl, by decide +kernel, by decide +kernel, fresh_inFlight _, by decide⟩

theorem witness_WriteFrameDataDecodesToItself :
    TableOk State.reset ∧ TableOk (built [0x06, 0x00, 0x00, 0x82]) ∧ (0x82 : Byte) ≠ crcOf 0x0000 :=
  ⟨tableOk_of_unbuilt rfl, built_tableOk _, by decide +kernel⟩

theorem witness_DecodeWordsRefusesIllegalGroupCount :
    ((0x00 : Byte).toNat = 0 ∨ State.reset.params.nmax < (0x00 : Byte).toNat) ∧
    ((0x07 : Byte).toNat = 0 ∨ State.reset.params.nmax < (0x07 : Byte).toNat) ∧
    ((0xFF : Byte).toNat = 0 ∨ State.reset.params.nmax < (0xFF : Byte).toNat) := by decide

theorem witness_DecodeWordsReportsMalformedResponse :
    (1 ≤ (0x01 : Byte).toNat ∧ (0x01 : Byte).toNat ≤ State.reset.params.nmax ∧ ([] : List Byte).length ≠ 3 * (0x01 : Byte).toNat) ∧
    (1 ≤ (0x06 : Byte).toNat ∧ (0x06 : Byte).toNat ≤ State.reset.params.nmax ∧
      (w5 ++ [0x00]).length ≠ 3 * (0x06 : Byte).toNat) := by decide

theorem w5bad_good_below_five : ∀ j, j < 5 → groupGood w5bad j := by
  unfold groupGood
  decide +kernel

theorem witness_DecodeWordsReportsFirstBadGroup :
    (TableOk State.reset ∧ 1 ≤ (0x06 : Byte).toNat ∧ (0x06 : Byte).toNat ≤ State.reset.params.nmax ∧
      w5bad.length = 3 * (0x06 : Byte).toNat ∧ 5 < (0x06 : Byte).toNat ∧ ¬ groupGood w5bad 5 ∧
      ∀ j, j < 5 → groupGood w5bad j) ∧
    (¬ groupGood [0x00, 0x00, 0x00] 0 ∧ ∀ j, j < 0 → groupGood [0x00, 0x00, 0x00] j) :=
  ⟨⟨tableOk_of_unbuilt rfl, by decide, by decide, rfl, by decide, by unfold groupGood; decide +kernel,
    w5bad_good_below_five⟩, by unfold groupGood; decide +kernel, fun _ h => absurd h (Nat.not_lt_zero _)⟩

theorem w5_good : ∀ k, k < (0x06 : Byte).toNat → groupGood w5 k := by
  unfold groupGood
  decide +kernel

theorem witness_DecodeWordsAnswersWordsInWireOrder :
    TableOk State.reset ∧ 1 ≤ (0x06 : Byte).toNat ∧ (0x06 : Byte).toNat ≤ State.reset.params.nmax ∧
    w5.length = 3 * (0x06 : Byte).toNat ∧ ∀ k, k < (0x06 : Byte).toNat → groupGood w5 k :=
  ⟨tableOk_of_unbuilt rfl, by decide, by decide, rfl, w5_good⟩

/-- The premises of both clauses: W5, all of whose groups decode, and W5 with a corrupted last group. -/
theorem witness_DecodeWordsAgreesWithDecodeWordPerGroup :
    (∀ k, k < (0x06 : Byte).toNat →
      ∃ t, exec (.decodeWord (groupAt w5 k).1 (groupAt w5 k).2.1 (groupAt w5 k).2.2) State.reset = .next t ∧
        Answered State.reset t [0x00, (groupAt w5 k).1, (groupAt w5 k).2.1]) ∧
    (∃ t, exec (.decodeWord (groupAt w5bad 5).1 (groupAt w5bad 5).2.1 (groupAt w5bad 5).2.2) State.reset = .next t ∧
      Answered State.reset t [0x01, 0x00]) ∧
    ∀ j, j < 5 →
      ∃ t, exec (.decodeWord (groupAt w5bad j).1 (groupAt w5bad j).2.1 (groupAt w5bad j).2.2) State.reset = .next t ∧
        Answered State.reset t [0x00, (groupAt w5bad j).1, (groupAt w5bad j).2.1] := by
  have h : TableOk State.reset := tableOk_of_unbuilt rfl
  have hbad : ¬ crcOf (wordOf (groupAt w5bad 5).1 (groupAt w5bad 5).2.1) = (groupAt w5bad 5).2.2 := by
    decide +kernel
  refine ⟨fun k hk => ⟨_, exec_decodeWord_eq h _ _ _, ?_⟩, ⟨_, exec_decodeWord_eq h _ _ _, ?_⟩,
    fun j hj => ⟨_, exec_decodeWord_eq h _ _ _, ?_⟩⟩
  · have hg : crcOf (wordOf (groupAt w5 k).1 (groupAt w5 k).2.1) = (groupAt w5 k).2.2 := w5_good k hk
    rw [if_pos hg]
    exact answered_respond (.inr rfl) _
  · rw [if_neg hbad]
    exact answered_respond (.inr rfl) _
  · have hg : crcOf (wordOf (groupAt w5bad j).1 (groupAt w5bad j).2.1) = (groupAt w5bad j).2.2 :=
      w5bad_good_below_five j hj
    rw [if_pos hg]
    exact answered_respond (.inr rfl) _

theorem witness_OnlyGroupCountCanBeIllegal :
    (∃ t, exec (.decodeWords 0 []) State.reset = .next t) ∧ ∃ t, exec (.encodeRead 0x0202) State.reset = .next t :=
  ⟨⟨_, rfl⟩, _, rfl⟩

theorem witness_StatusByteTellsFailureFromResult :
    TableOk (fresh [0x09]) ∧ InFlight (fresh [0x09]) { requester := 1, bytes := [0x09] } ∧
    ∃ t, step (fresh [0x09]) = .next t :=
  ⟨fresh_tableOk _, fresh_inFlight _, _, rfl⟩

/-- Each of the four status bytes is met, at the ends of the range of `N` and of the index. -/
theorem witness_StatusByteTellsFailureFromResult_each :
    RequestSucceeds State.reset.params (0x07 :: 0x06 :: 0x12 :: w5) ∧
    RequestSucceeds State.reset.params [0x05, 0x02, 0x02] ∧
    RequestHasBadGroup State.reset.params (0x07 :: 0x06 :: 0x12 :: w5bad) 5 ∧
    RequestHasBadGroup State.reset.params [0x06, 0x00, 0x00, 0x00] 0 ∧
    RequestMalformed State.reset.params [0x07, 0x01, 0x00] ∧
    RequestIllegal State.reset.params [0x07, 0x00, 0x00] ∧ RequestIllegal State.reset.params [0x07, 0x07, 0x00] ∧
    RequestIllegal State.reset.params [0x09] := by
  refine ⟨⟨.decodeWords 0x06 w5, by decide, by decide, ?_, fun _ _ _ h => (by cases h)⟩,
    ⟨.encodeRead 0x0202, by decide, by decide, fun _ _ h => (by cases h), fun _ _ _ h => (by cases h)⟩,
    .inr ⟨0x06, w5bad, by decide, by decide, by decide, by decide, by unfold groupGood; decide +kernel,
      w5bad_good_below_five⟩,
    .inl ⟨rfl, 0x00, 0x00, 0x00, by decide, by unfold groupGood; decide +kernel⟩,
    ⟨0x01, [], by decide, by decide, by decide⟩, .inr ⟨.decodeWords 0x00 [], by decide, by decide⟩,
    .inr ⟨.decodeWords 0x07 [], by decide, by decide⟩, .inl (by decide)⟩
  rintro n body h
  cases h
  exact ⟨by decide, w5_good⟩

theorem witness_ErrorsAreRaisedByTheirOperations :
    ∃ t, exec (.decodeWord 0x00 0x00 0x00) State.reset = .next t := ⟨_, rfl⟩

theorem witness_FirstApplicableErrorIsReported :
    (∀ b, Ready b ∧ (fresh b).params = State.reset.params) ∧ ReservedRequest [0x09] ∧
    (¬ ReservedRequest [0x01, 0x00] ∧ WrongLength [0x01, 0x00]) ∧
    (¬ WrongLength [0x07, 0x07, 0x03, 0x00, 0x00, 0x81] ∧ State.reset.params.nmax < (0x07 : Byte).toNat) ∧
    (¬ WrongLength [0x07, 0x02, 0x05, 0x00, 0x00, 0x00, 0x00, 0x00] ∧ 1 ≤ (0x02 : Byte).toNat ∧
      (0x02 : Byte).toNat ≤ State.reset.params.nmax ∧ (0x05 : Byte).toNat ≠ 3 * (0x02 : Byte).toNat) ∧
    (¬ WrongLength (0x07 :: 0x06 :: 0x12 :: w5bad) ∧ (0x12 : Byte).toNat = 3 * (0x06 : Byte).toNat ∧
      5 < (0x06 : Byte).toNat ∧ ¬ groupGood w5bad 5 ∧ ∀ j, j < 5 → groupGood w5bad j) ∧
    (¬ WrongLength [0x06, 0x00, 0x00, 0x00] ∧ ¬ groupGood [0x00, 0x00, 0x00] 0) := by
  refine ⟨fun b => ⟨ready b, rfl⟩, .inr ⟨_, _, rfl, by decide⟩, ⟨?_, ⟨_, _, rfl, by decide⟩⟩, ⟨?_, by decide⟩,
    ⟨?_, by decide, by decide, by decide⟩,
    ⟨?_, by decide, by decide, by unfold groupGood; decide +kernel, w5bad_good_below_five⟩,
    ⟨?_, by unfold groupGood; decide +kernel⟩⟩
  · rintro (h | ⟨op, rest, h, h2⟩)
    · cases h
    · cases h; revert h2; decide
  all_goals
    rintro ⟨op, rest, h, h2⟩
    cases h
    revert h2
    decide

theorem witness_ErrorsWriteNothingButTheLazyBuild :
    (∀ b, Ready b) ∧
    (∃ t, step (fresh [0x09]) = .next t ∧
      t.responses = [{ answers := some { requester := 1, bytes := [0x09] }, bytes := [0x03] }]) ∧
    (∃ t, step (fresh [0x07, 0x01, 0x00]) = .next t ∧
      t.responses = [{ answers := some { requester := 1, bytes := [0x07, 0x01, 0x00] }, bytes := [0x02] }]) ∧
    (∃ t, step (fresh [0x06, 0x00, 0x00, 0x00]) = .next t ∧
      t.responses =
        [{ answers := some { requester := 1, bytes := [0x06, 0x00, 0x00, 0x00] }, bytes := [0x01, 0x00] }]) := by
  have hbad : ¬ crcOf (wordOf 0x00 0x00) = 0x00 := by decide +kernel
  refine ⟨ready, ⟨_, rfl, rfl⟩, ⟨_, rfl, rfl⟩,
    ⟨_, (step_of_inFlight (fresh_inFlight _)).trans (exec_decodeWord_eq (fresh_tableOk _) _ _ _), ?_⟩⟩
  rw [if_neg hbad]
  rfl

theorem witness_NextRequestAfterAnyResponseIsServed :
    TableOk (built [0x09]) ∧ InFlight (built [0x09]) { requester := 1, bytes := [0x09] } ∧ (built [0x09]).held = [] :=
  ⟨built_tableOk _, built_inFlight _, rfl⟩

end Sys2Proof.Tests
end

section
/-! The table invariant of 10_state.md R24 along a step, and the responses, which do not reveal the table (R26). -/

namespace Sys2Proof.Machine

open Sys2Proof.Safety

/-! ### The table invariant along a step (R24) -/

@[simp] theorem tableOk_respond {b : List Byte} {s : State} : TableOk (respond b s) ↔ TableOk s := Iff.rfl

@[simp] theorem tableOk_accept {r : Request} {s : State} : TableOk (accept r s) ↔ TableOk s := Iff.rfl

theorem tableOk_assertReset (s : State) : TableOk (assertReset s) := tableOk_of_unbuilt (assertReset_tValid s)

/-- R24: every step keeps the table invariant. -/
theorem step_keeps_tableOk {s t : State} (h : TableOk s) (hst : step s = .next t) : TableOk t := by
  obtain ⟨-, e⟩ | ⟨r, -, b, s1, hs1, e⟩ | ⟨-, -, r, l1, l2, -, -, e⟩ | ⟨-, e⟩ := step_cases s <;>
    obtain rfl := Host.Outcome.next.inj (e.symm.trans hst)
  · exact tableOk_assertReset s
  · rw [tableOk_respond]
    obtain rfl | rfl := hs1
    · exact h
    · exact tableOk_ensureTable h
  · exact tableOk_accept.mpr h
  · exact h

/-- R24: a built table never changes, unless it is reset. -/
theorem step_keeps_builtTable {s t : State} (hv : s.tValid = true) (hr : s.resetIn = false)
    (hst : step s = .next t) : t.tValid = true ∧ t.lut = s.lut := by
  obtain ⟨hreset, -⟩ | ⟨r, -, b, s1, hs1, e⟩ | ⟨-, -, r, l1, l2, -, -, e⟩ | ⟨-, e⟩ := step_cases s
  · simp [hr] at hreset
  all_goals obtain rfl := Host.Outcome.next.inj (e.symm.trans hst)
  · rw [ensureTable_of_valid hv, or_self] at hs1
    subst hs1
    exact ⟨hv, rfl⟩
  · exact ⟨hv, rfl⟩
  · exact ⟨hv, rfl⟩

/-! ### The response does not reveal the table (R26) -/

/-- R48: where the table is right, an operation delivers the one response its operands determine. -/
theorem exec_responses {s : State} (h : TableOk s) (i : Instr) :
    ∃ t, exec i s = .next t ∧
      t.responses = s.responses ++ [{ answers := s.inFlight, bytes := resultOf s.params.nmax i }] := by
  obtain ⟨s1, hs1, e⟩ := exec_eq h i
  exact ⟨_, e, (answered_respond hs1 _).responses⟩

/-- Two right tables, built or not, give an operation the same response. -/
theorem exec_responses_of_tableOk {s : State} {m : Memory} {v : Bool} (h : TableOk s)
    (h' : TableOk { s with lut := m, tValid := v }) (i : Instr) :
    ∃ t1 t2, exec i s = .next t1 ∧ exec i { s with lut := m, tValid := v } = .next t2 ∧
      t1.responses = t2.responses := by
  obtain ⟨t1, e1, hr1⟩ := exec_responses h i
  obtain ⟨t2, e2, hr2⟩ := exec_responses h' i
  exact ⟨t1, t2, e1, e2, hr1.trans hr2.symm⟩

/-- Settles O17: both states have a right table, so each response is the function of the operands alone. -/
theorem responsesDoNotRevealTheTable : Obligations.ResponsesDoNotRevealTheTable :=
  fun i _ _ _ h h' => exec_responses_of_tableOk h h' i

/-- Settles O14: the invariant and a built table by the cases of a step; an unbuilt table has the invariant whatever it
holds, so no response reveals it. -/
theorem tableStaysRightAndUnchanged : Obligations.TableStaysRightAndUnchanged := by
  refine ⟨fun s t h hst => ⟨step_keeps_tableOk h hst, fun hv hr => step_keeps_builtTable hv hr hst⟩, ?_⟩
  intro s i m hv
  have hm : TableOk { s with lut := m, tValid := s.tValid } := tableOk_of_unbuilt hv
  exact exec_responses_of_tableOk (tableOk_of_unbuilt hv) hm i

end Sys2Proof.Machine
end

section
/-! The response to a request is a function of its bytes (20_memory.md R48). -/

namespace Sys2Proof.Machine

open Sys2Proof.Safety

/-- R48: the step that executes a request delivers, to that request, the response its bytes determine. -/
theorem step_delivers_responseOf {s : State} {r : Request} (h : TableOk s) (hf : InFlight s r) :
    ∃ t, step s = .next t ∧
      t.responses = s.responses ++ [{ answers := some r, bytes := responseOf s.params.nmax r.bytes }] := by
  obtain ⟨s1, hs1, e⟩ := runRequest_eq h r
  refine ⟨_, (step_of_inFlight hf).trans e, ?_⟩
  obtain ⟨-, -, hr⟩ := hf
  rw [(answered_respond hs1 _).responses, hr]

/-- Settles O18: both blocks deliver `responseOf` of the one `NMAX` and the one byte sequence. -/
theorem sameRequestBytesSameResponse : Obligations.SameRequestBytesSameResponse := by
  intro s1 s2 r1 r2 h1 h2 hf1 hf2 hbytes hparams
  obtain ⟨t1, e1, d1⟩ := step_delivers_responseOf h1 hf1
  obtain ⟨t2, e2, d2⟩ := step_delivers_responseOf h2 hf2
  rw [← hbytes, ← hparams] at d2
  exact ⟨t1, t2, _, e1, e2, d1, d2⟩

end Sys2Proof.Machine
end

section
/-! The requests that select no operation (30_encoding.md R66, R67), and the one illegal operand value (R69). -/

namespace Sys2Proof.Machine

open Sys2Proof.Safety

/-! ### Requests without a format are not decoded -/

/-- The request has a defined operation code and the length of its format (R61, R67). -/
def FitsFormat (bytes : List Byte) : Prop :=
  ∃ op rest f, bytes = op :: rest ∧ formatOf op = some f ∧ bytes.length = formatLength f (bytes.getD 2 0)

theorem formatOf_eq_none_of_reserved {op : Byte} (h : op.toNat = 0 ∨ 8 ≤ op.toNat) : formatOf op = none := by
  unfold formatOf
  split
  case h_8 => rfl
  all_goals omega

/-- What the decoder gives a meaning fits its format (R62, R68). -/
theorem fitsFormat_of_decode {bytes : List Byte} {i : Instr} (h : decode bytes = some i) : FitsFormat bytes := by
  cases bytes with
  | nil => cases h
  | cons op operands =>
    rw [decode] at h
    unfold decodeOperands at h
    split at h
    · next hop => exact ⟨op, _, .f0, rfl, by simp [formatOf, hop], rfl⟩
    · next hop => exact ⟨op, _, .f2, rfl, by simp [formatOf, hop], rfl⟩
    · next hop => exact ⟨op, _, .f3, rfl, by simp [formatOf, hop], rfl⟩
    · next hop => exact ⟨op, _, .f4, rfl, by simp [formatOf, hop], rfl⟩
    · next hop => exact ⟨op, _, .f2, rfl, by simp [formatOf, hop], rfl⟩
    · next hop => exact ⟨op, _, .f3, rfl, by simp [formatOf, hop], rfl⟩
    · next n l r hop =>
      split at h
      · next hlen =>
        refine ⟨op, _, .fv, rfl, by simp [formatOf, hop], ?_⟩
        change r.length + 3 = 3 + l.toNat
        omega
      · cases h
    · cases h

/-- R66: a reserved operation code has no format, and an empty request has no operation code. -/
theorem not_fitsFormat_of_reserved {bytes : List Byte} (h : ReservedRequest bytes) : ¬ FitsFormat bytes := by
  rintro ⟨op, rest, f, rfl, hf, -⟩
  obtain h | ⟨op', rest', h, hop⟩ := h
  · cases h
  · cases h
    simp [formatOf_eq_none_of_reserved hop] at hf

/-- R67: the seven lengths are those of the formats. -/
theorem not_fitsFormat_of_wrongLength {bytes : List Byte} (h : WrongLength bytes) : ¬ FitsFormat bytes := by
  rintro ⟨op, rest, f, rfl, hf, hlen⟩
  obtain ⟨op', rest', h, hop⟩ := h
  cases h
  obtain ⟨rfl, h⟩ | ⟨rfl, h⟩ | ⟨rfl, h⟩ | ⟨rfl, h⟩ | ⟨rfl, h⟩ | ⟨rfl, h⟩ | ⟨rfl, h⟩ := hop <;>
    cases hf <;> rw [formatLength] at hlen <;> omega

theorem decode_eq_none_of_not_fitsFormat {bytes : List Byte} (h : ¬ FitsFormat bytes) : decode bytes = none :=
  Option.eq_none_iff_forall_ne_some.mpr fun _ hi => h (fitsFormat_of_decode hi)

/-- A request in flight that the decoder refuses is answered ILLEGAL_OPERATION, with nothing performed. -/
theorem stepRejects_of_undecoded {s : State} {r : Request} (hf : InFlight s r) (h : decode r.bytes = none) :
    StepRejects s [0x03] := by
  refine ⟨respond [0x03] s, ?_, answered_respond (.inl rfl) _, tableKept_respond s _⟩
  rw [step_of_inFlight hf, runRequest, h]
  rfl

/-- Settles O9: a reserved request fits no format, so it is not decoded. -/
theorem reservedRequestsAnswerIllegalOperation : Obligations.ReservedRequestsAnswerIllegalOperation :=
  fun _ _ hf h => stepRejects_of_undecoded hf (decode_eq_none_of_not_fitsFormat (not_fitsFormat_of_reserved h))

/-- Settles O10: a request of the wrong length does not fit its format, so it is not decoded. -/
theorem wrongLengthAnswersIllegalOperation : Obligations.WrongLengthAnswersIllegalOperation :=
  fun _ _ hf h => stepRejects_of_undecoded hf (decode_eq_none_of_not_fitsFormat (not_fitsFormat_of_wrongLength h))

/-! ### The illegal operand value -/

theorem legal_decodeWords_eq_false {p : Config.Params} {n : Byte} {r : List Byte} :
    (Instr.decodeWords n r).legal p = false ↔ n.toNat = 0 ∨ p.nmax < n.toNat := by
  simp only [Instr.legal, Bool.and_eq_false_iff, decide_eq_false_iff_not]
  omega

/-- DECODE_WORD, whatever the table holds: a word or the failure of group 0, after the lazy build (R106). -/
theorem exec_decodeWord_cases (a b c : Byte) (s : State) :
    exec (.decodeWord a b c) s = .next (respondOk [a, b] (ensureTable s)) ∨
    exec (.decodeWord a b c) s = .next (raise (.checksumFailure 0x00) (ensureTable s)) := by
  simp only [exec, execDecodeWord, decodeGroup, crc8Word_snd]
  by_cases hc : (crc8Word (wordOf a b) s).1 = c
  · exact .inl (by simp [hc, wordBytes_wordOf])
  · exact .inr (by simp [hc])

/-- DECODE_WORDS, whatever the table holds: the range of `N`, then the byte count, then the groups (R108). -/
theorem exec_decodeWords_cases (n : Byte) (r : List Byte) (s : State) :
    ((Instr.decodeWords n r).legal s.params = false ∧
      exec (.decodeWords n r) s = .next (raise .illegalOperation s)) ∨
    ((Instr.decodeWords n r).legal s.params = true ∧ r.length ≠ 3 * n.toNat ∧
      exec (.decodeWords n r) s = .next (raise .malformedResponse s)) ∨
    ((Instr.decodeWords n r).legal s.params = true ∧ r.length = 3 * n.toNat ∧
      ∃ s1, (s1 = s ∨ s1 = ensureTable s) ∧
        ((∃ out, exec (.decodeWords n r) s = .next (respondOk (n :: out) s1)) ∨
          ∃ k, exec (.decodeWords n r) s = .next (raise (.checksumFailure k) s1))) := by
  by_cases hn : n.toNat = 0 ∨ s.params.nmax < n.toNat
  · exact .inl ⟨legal_decodeWords_eq_false.mpr hn, by simp only [exec, execDecodeWords, if_pos hn]⟩
  · have hl : (Instr.decodeWords n r).legal s.params = true := by
      rwa [← Bool.not_eq_false, legal_decodeWords_eq_false]
    by_cases hlen : r.length = 3 * n.toNat
    · refine .inr (.inr ⟨hl, hlen, (decodeGroups 0 (groupsOf r) s).2, decodeGroups_state 0 (groupsOf r) s, ?_⟩)
      simp only [exec, execDecodeWords, if_neg hn, hlen, ne_eq, not_true_eq_false, if_false]
      split
      · next out s1 h => exact .inl ⟨out, by rw [h]⟩
      · next k s1 h => exact .inr ⟨_, by rw [h]⟩
    · exact .inr (.inl ⟨hl, hlen, by simp [exec, execDecodeWords, hn, hlen]⟩)

/-- R69: an operation with an illegal operand is answered ILLEGAL_OPERATION, and every other one with a different
status. -/
theorem exec_illegal_cases (i : Instr) (s : State) :
    (i.legal s.params = false ∧ exec i s = .next (raise .illegalOperation s)) ∨
    (i.legal s.params = true ∧
      ∃ status rest s1, status ≠ 0x03 ∧ exec i s = .next (respond (status :: rest) s1)) := by
  cases i with
  | build => exact .inr ⟨rfl, 0x00, _, _, by decide, rfl⟩
  | checksum w => exact .inr ⟨rfl, 0x00, _, _, by decide, rfl⟩
  | validate h l c => exact .inr ⟨rfl, 0x00, _, _, by decide, rfl⟩
  | encodeWrite c d => exact .inr ⟨rfl, 0x00, _, _, by decide, rfl⟩
  | encodeRead c => exact .inr ⟨rfl, 0x00, _, _, by decide, rfl⟩
  | decodeWord a b c =>
    obtain e | e := exec_decodeWord_cases a b c s
    · exact .inr ⟨rfl, 0x00, _, _, by decide, e⟩
    · exact .inr ⟨rfl, 0x01, _, _, by decide, e⟩
  | decodeWords n r =>
    obtain h | ⟨hl, -, e⟩ | ⟨hl, -, s1, -, ⟨out, e⟩ | ⟨k, e⟩⟩ := exec_decodeWords_cases n r s
    · exact .inl h
    · exact .inr ⟨hl, 0x02, _, _, by decide, e⟩
    · exact .inr ⟨hl, 0x00, _, _, by decide, e⟩
    · exact .inr ⟨hl, 0x01, _, _, by decide, e⟩

/-- The last response delivered after `respond b` is `b`. -/
theorem respond_getLast_bytes (b : List Byte) (s : State) :
    (respond b s).responses.getLast?.map Response.bytes = some b := by simp

/-- Settles O44: by the two cases of an operation, an illegal operand or a status other than ILLEGAL_OPERATION. -/
theorem onlyGroupCountCanBeIllegal : Obligations.OnlyGroupCountCanBeIllegal := by
  intro i s t hst
  obtain ⟨hl, e⟩ | ⟨hl, status, rest, s1, hne, e⟩ := exec_illegal_cases i s <;>
    obtain rfl := Host.Outcome.next.inj (e.symm.trans hst)
  · exact iff_of_true (respond_getLast_bytes _ _) hl
  · refine iff_of_false (fun h => ?_) (by simp [hl])
    rw [respond_getLast_bytes, Option.some.injEq] at h
    exact hne (List.head_eq_of_cons_eq h)

end Sys2Proof.Machine
end

section
/-! The CRC8 Engine (40_crc8_engine.md): the two table lookups are a bit-serial CRC-8 (R82), and what BUILD, CHECKSUM
and VALIDATE answer (R84, R86, R88). -/

namespace Sys2Proof.Machine

open Sys2Proof.Safety

/-! ### The table form and the bit-serial form (R82) -/

/-- One bit of the serial register against one bit-shift of R80: where the shifted byte is the serial register XOR the
message bits still to come, it is so again after the bit. -/
theorem crcShift_xor_eq_serialBit (c m : Byte) :
    crcShift (c ^^^ m) = serialBit c (m.getLsbD 7) ^^^ m <<< 1 := by
  have hshift : (c ^^^ m) <<< 1 = c <<< 1 ^^^ m <<< 1 := BitVec.shiftLeft_xor_distrib ..
  simp only [crcShift, serialBit, BitVec.getLsbD_xor, hshift]
  split
  · rw [BitVec.xor_assoc, BitVec.xor_assoc, BitVec.xor_comm (m <<< 1)]
  · rfl

/-- The same for the message byte shifted `k` times: the bit that meets the register is then bit `7 - k`. -/
theorem crcShift_xor_shiftLeft (c m : Byte) {k : Nat} (hk : k ≤ 7) :
    crcShift (c ^^^ m <<< k) = serialBit c (m.getLsbD (7 - k)) ^^^ m <<< (k + 1) := by
  have hbit : (m <<< k).getLsbD 7 = m.getLsbD (7 - k) := by
    rw [BitVec.getLsbD_shiftLeft, decide_eq_false (Nat.not_lt.mpr hk)]; rfl
  rw [crcShift_xor_eq_serialBit, hbit, BitVec.shiftLeft_add]

/-- A message byte through the serial register is `crc8_byte` of the register XOR the byte: after eight bits no message
bit is left to come. -/
theorem serialByte_eq_crc8Byte (c m : Byte) : serialByte c m = crc8Byte (c ^^^ m) := by
  have hall : m <<< 8 = 0 := by simp
  have hfirst := crcShift_xor_eq_serialBit c m
  simp [crc8Byte, crcShifts, serialByte, hfirst, crcShift_xor_shiftLeft, hall]

/-- R82: the bit-serial CRC-8 of a word's bytes, the high byte first, is the checksum of the word. -/
theorem serialCrc_wordBytes (w : Word) : serialCrc [hi w, lo w] = crcOf w := by
  simp [serialCrc, serialByte_eq_crc8Byte, crcOf]

/-- Settles O23: `crc8_word` is `crcOf`, which is the bit-serial CRC-8, after the lazy build. -/
theorem tableLookupsComputeBitSerialCrc : Obligations.TableLookupsComputeBitSerialCrc := by
  intro s w h
  rw [crc8Word_eq h]
  exact ⟨rfl, (serialCrc_wordBytes w).symm, tableBuilt_ensureTable h⟩

/-! ### The operations (R84, R86, R88) -/

/-- R67: a defined operation code with a length that is not its format's is answered ILLEGAL_OPERATION, with nothing
performed. -/
theorem stepRejects_of_formatLength {s : State} {r : Request} {op : Byte} {rest : List Byte} {f : Format}
    (hf : InFlight s r) (hb : r.bytes = op :: rest) (hop : formatOf op = some f)
    (hlen : (op :: rest).length ≠ formatLength f ((op :: rest).getD 2 0)) : StepRejects s [0x03] := by
  refine stepRejects_of_undecoded hf (decode_eq_none_of_not_fitsFormat ?_)
  rintro ⟨op', rest', f', h, hop', hlen'⟩
  rw [hb] at h hlen'
  cases h
  obtain rfl := Option.some.inj (hop.symm.trans hop')
  exact hlen hlen'

/-- What an operation that responds after the lazy build leaves: its one response, and the table built. -/
theorem exec_answers_and_builds {s : State} {i : Instr} {b : List Byte} (h : TableOk s)
    (e : exec i s = .next (respond b (ensureTable s))) :
    ∃ t, exec i s = .next t ∧ Answered s t b ∧ TableBuilt s t :=
  ⟨_, e, answered_respond (.inr rfl) b, tableBuilt_respond h b⟩

theorem exec_build_eq (s : State) : exec .build s = .next (respond [0x00] (ensureTable s)) := rfl

theorem decode_checksum (w : Word) : decode [0x02, hi w, lo w] = some (.checksum w) := by
  simp [decode, decodeOperands]

/-- Settles O26: BUILD responds after the lazy build; a longer request does not fit format `F0`. -/
theorem buildBuildsTheTableOnce : Obligations.BuildBuildsTheTableOnce := by
  refine ⟨rfl, fun s h => exec_answers_and_builds h (exec_build_eq s), ?_, by decide⟩
  intro s r rest hf hb hne
  have hpos : rest.length ≠ 0 := mt List.length_eq_zero_iff.mp hne
  exact stepRejects_of_formatLength (f := .f0) hf hb rfl (by simpa [formatLength] using hpos)

/-- Settles O29: CHECKSUM responds with `crcOf` after the lazy build; another length does not fit format `F2`. -/
theorem checksumAnswersTheChecksum : Obligations.ChecksumAnswersTheChecksum := by
  refine ⟨decode_checksum, fun s w h => exec_answers_and_builds h (exec_checksum_eq h w), ?_, by decide +kernel⟩
  intro s r rest hf hb hlen
  exact stepRejects_of_formatLength (f := .f2) hf hb rfl (by simpa [formatLength] using hlen)

/-- Settles O30: VALIDATE responds with the comparison after the lazy build; another length does not fit format `F3`. -/
theorem validateAnswersWhetherChecksumMatches : Obligations.ValidateAnswersWhetherChecksumMatches := by
  refine ⟨fun _ _ _ => rfl, ?_, ?_, by decide +kernel⟩
  · intro s h l c hs
    obtain ⟨t, e, ha, ht⟩ := exec_answers_and_builds hs (exec_validate_eq hs h l c)
    exact ⟨t, e, ht, fun hc => by rwa [if_pos hc] at ha, fun hc => by rwa [if_neg hc] at ha⟩
  · intro s r rest hf hb hlen
    exact stepRejects_of_formatLength (f := .f3) hf hb rfl (by simpa [formatLength] using hlen)

end Sys2Proof.Machine
end

section
/-! The Frame Codec (41_frame_codec.md): what ENCODE_WRITE, ENCODE_READ and DECODE_WORD answer (R101 to R103, R106), and
what DECODE_WORDS answers (R109, R112 to R114). -/

namespace Sys2Proof.Machine

open Sys2Proof.Safety

/-! ### Frames (R101, R102, R103) -/

theorem crcOf_zero : crcOf 0x0000 = 0x81 := by decide +kernel

theorem decode_encodeWrite (cmd data : Word) :
    decode [0x04, hi cmd, lo cmd, hi data, lo data] = some (.encodeWrite cmd data) := by
  simp [decode, decodeOperands]

theorem decode_encodeRead (cmd : Word) : decode [0x05, hi cmd, lo cmd] = some (.encodeRead cmd) := by
  simp [decode, decodeOperands]

theorem exec_encodeRead_eq (cmd : Word) (s : State) :
    exec (.encodeRead cmd) s = .next (respond [0x00, hi cmd, lo cmd] s) := rfl

/-- What an operation that responds without a build leaves: its one response, and the table as it was. -/
theorem exec_answers_and_keeps {s : State} {i : Instr} {b : List Byte} (e : exec i s = .next (respond b s)) :
    ∃ t, exec i s = .next t ∧ Answered s t b ∧ TableKept s t :=
  ⟨_, e, answered_respond (.inl rfl) b, tableKept_respond s b⟩

/-- Settles O34: ENCODE_WRITE responds with the frame after the lazy build; another length does not fit format `F4`. -/
theorem encodeWriteAnswersTheWriteFrame : Obligations.EncodeWriteAnswersTheWriteFrame := by
  refine ⟨decode_encodeWrite, fun s cmd data h => exec_answers_and_builds h (exec_encodeWrite_eq h cmd data), ?_, ?_⟩
  · intro s r rest hf hb hlen
    exact stepRejects_of_formatLength (f := .f4) hf hb rfl (by simpa [formatLength] using hlen)
  · intro s h
    have e := exec_encodeWrite_eq h 0x0010 0x0000
    rw [crcOf_zero] at e
    exact ⟨_, e, answered_respond (.inr rfl) _⟩

/-- Settles O35: the one checksum byte is `crcOf` of the data word. -/
theorem commandWordNeverEntersTheChecksum : Obligations.CommandWordNeverEntersTheChecksum := by
  intro s data h
  refine ⟨crcOf data, fun cmd => ⟨_, exec_encodeWrite_eq h cmd data, answered_respond (.inr rfl) _, ?_⟩⟩
  rintro rfl
  exact crcOf_zero

/-- Settles O36: ENCODE_READ responds with the command's bytes without a build; another length does not fit format
`F2`. -/
theorem encodeReadAnswersTheBareFrame : Obligations.EncodeReadAnswersTheBareFrame := by
  refine ⟨decode_encodeRead, fun s cmd => exec_answers_and_keeps (exec_encodeRead_eq cmd s), ?_, by decide⟩
  intro s r rest hf hb hlen
  exact stepRejects_of_formatLength (f := .f2) hf hb rfl (by simpa [formatLength] using hlen)

/-! ### One group (R106) -/

/-- Settles O37: DECODE_WORD judges its group after the lazy build; another length does not fit format `F3`. -/
theorem decodeWordAnswersWordOrFailure : Obligations.DecodeWordAnswersWordOrFailure := by
  refine ⟨fun _ _ _ => rfl, ?_, ?_, by decide +kernel⟩
  · intro s a b c h
    rw [hi_wordOf, lo_wordOf]
    obtain ⟨t, e, ha, ht⟩ := exec_answers_and_builds h (exec_decodeWord_eq h a b c)
    exact ⟨t, e, ht, fun hc => by rwa [if_pos hc] at ha, fun hc => by rwa [if_neg hc] at ha⟩
  · intro s r rest hf hb hlen
    exact stepRejects_of_formatLength (f := .f3) hf hb rfl (by simpa [formatLength] using hlen)

/-! ### A sequence of groups: the two errors that examine no group (R109, R112) -/

/-- Settles O39: the refusal is the first check, and it raises in the state as it is. -/
theorem decodeWordsRefusesIllegalGroupCount : Obligations.DecodeWordsRefusesIllegalGroupCount := by
  intro s n r hn
  have e : exec (.decodeWords n r) s = .next (raise .illegalOperation s) := by
    simp only [exec, execDecodeWords, if_pos hn]
  exact exec_answers_and_keeps e

/-- Settles O40: where `N` is legal, the byte count is checked next, and its error raises in the state as it is. -/
theorem decodeWordsReportsMalformedResponse : Obligations.DecodeWordsReportsMalformedResponse := by
  intro s n r h1 h2 hlen
  have hn : ¬ (n.toNat = 0 ∨ s.params.nmax < n.toNat) := by omega
  have e : exec (.decodeWords n r) s = .next (raise .malformedResponse s) := by
    simp only [exec, execDecodeWords, if_neg hn, if_pos hlen]
  exact exec_answers_and_keeps e

/-! ### A sequence of groups that is examined (R113, R114) -/

section examined
variable {s : State} {n : Byte} {r : List Byte} (h1 : 1 ≤ n.toNat) (h2 : n.toNat ≤ s.params.nmax)
  (hlen : r.length = 3 * n.toNat)
include h1 h2 hlen

/-- Where `N` is legal and there are `3N` bytes, DECODE_WORDS examines the groups, and so builds the table. -/
theorem exec_decodeWords_of_fits (h : TableOk s) :
    exec (.decodeWords n r) s = .next (respond (resultOf s.params.nmax (.decodeWords n r)) (ensureTable s)) := by
  rw [exec_decodeWords_eq h, if_neg (by omega)]

theorem resultOf_decodeWords_of_bad {k : Nat} (hbad : firstBad r 0 n.toNat = some k) :
    resultOf s.params.nmax (.decodeWords n r) = [0x01, BitVec.ofNat 8 k] := by
  rw [resultOf, if_neg (by omega), if_neg (not_not.mpr hlen), hbad]

theorem resultOf_decodeWords_of_good (hgood : firstBad r 0 n.toNat = none) :
    resultOf s.params.nmax (.decodeWords n r) = 0x00 :: n :: wordsOf r n.toNat := by
  rw [resultOf, if_neg (by omega), if_neg (not_not.mpr hlen), hgood]

end examined

/-- Settles O41: the group below which all are good is the first bad one. -/
theorem decodeWordsReportsFirstBadGroup : Obligations.DecodeWordsReportsFirstBadGroup := by
  intro s n r k h h1 h2 hlen hk hbad hgood
  have hfirst : firstBad r 0 n.toNat = some k :=
    firstBad_eq_some (Nat.zero_le k) (by omega) hbad (fun i _ hi => hgood i hi)
  have e := exec_decodeWords_of_fits h1 h2 hlen h
  rw [resultOf_decodeWords_of_bad h1 h2 hlen hfirst] at e
  exact exec_answers_and_builds h e

theorem wordsOf_succ (r : List Byte) (n : Nat) :
    wordsOf r (n + 1) = wordsOf r n ++ [r.getD (3 * n) 0, r.getD (3 * n + 1) 0] := by
  simp [wordsOf, groupAt, List.range_succ]

@[simp] theorem wordsOf_length (r : List Byte) (n : Nat) : (wordsOf r n).length = 2 * n := by
  induction n with
  | zero => rfl
  | succ n ih => simp [wordsOf_succ, ih, Nat.mul_succ]

/-- R114: the two bytes of the word of group `k` stand at position `k` of the words. -/
theorem wordsOf_getD (r : List Byte) {n k : Nat} (hk : k < n) :
    (wordsOf r n).getD (2 * k) 0 = r.getD (3 * k) 0 ∧ (wordsOf r n).getD (2 * k + 1) 0 = r.getD (3 * k + 1) 0 := by
  induction n with
  | zero => omega
  | succ n ih =>
    rw [wordsOf_succ]
    obtain hlt | rfl := Nat.lt_succ_iff_lt_or_eq.mp hk
    · rw [List.getD_append _ _ _ _ (by simp; omega), List.getD_append _ _ _ _ (by simp; omega)]
      exact ih hlt
    · rw [List.getD_append_right _ _ _ _ (by simp), List.getD_append_right _ _ _ _ (by simp)]
      simp

/-- Settles O42: no group is bad, so the response is the words, whose length and positions are known. -/
theorem decodeWordsAnswersWordsInWireOrder : Obligations.DecodeWordsAnswersWordsInWireOrder := by
  intro s n r h h1 h2 hlen hgood
  have hnone : firstBad r 0 n.toNat = none := firstBad_eq_none_iff.mpr (fun j _ hj => hgood j (by omega))
  have e := exec_decodeWords_of_fits h1 h2 hlen h
  rw [resultOf_decodeWords_of_good h1 h2 hlen hnone] at e
  obtain ⟨t, et, ha, ht⟩ := exec_answers_and_builds h e
  refine ⟨t, _, et, ha, ht, by simp; omega, rfl, rfl, fun k hk => ?_⟩
  rw [Nat.add_comm 2, Nat.add_right_comm]
  exact wordsOf_getD r hk

end Sys2Proof.Machine
end

section
/-! The errors of a request and their order (60_exceptions.md R131 to R134): every request is in one of four classes, each
class has one kind of step, and so the status byte tells the class. -/

namespace Sys2Proof.Machine

open Sys2Proof.Safety

/-! ### Every request is in one of the four classes -/

theorem legal_decodeWords_eq_true {p : Config.Params} {n : Byte} {r : List Byte} :
    (Instr.decodeWords n r).legal p = true ↔ 1 ≤ n.toNat ∧ n.toNat ≤ p.nmax := by
  simp only [Instr.legal, Bool.and_eq_true, decide_eq_true_eq]

/-- The classes leave no request out: what does not decode is illegal, and what decodes is judged by its operands. -/
theorem request_cases (p : Config.Params) (bytes : List Byte) :
    RequestSucceeds p bytes ∨ (∃ k, RequestHasBadGroup p bytes k) ∨ RequestMalformed p bytes ∨
      RequestIllegal p bytes := by
  cases hd : decode bytes with
  | none => exact .inr (.inr (.inr (.inl hd)))
  | some i =>
    cases i with
    | build | checksum _ | validate _ _ _ | encodeWrite _ _ | encodeRead _ =>
      exact .inl ⟨_, hd, rfl, by simp, by simp⟩
    | decodeWord a b c =>
      by_cases hg : groupGood [a, b, c] 0
      · exact .inl ⟨_, hd, rfl, by simp, by rintro _ _ _ ⟨⟩; exact hg⟩
      · exact .inr (.inl ⟨0, .inl ⟨rfl, a, b, c, hd, hg⟩⟩)
    | decodeWords n body =>
      cases hl : (Instr.decodeWords n body).legal p with
      | false => exact .inr (.inr (.inr (.inr ⟨_, hd, hl⟩)))
      | true =>
        by_cases hlen : body.length = 3 * n.toNat
        · cases hb : firstBad body 0 n.toNat with
          | none =>
            have hgood : ∀ k, k < n.toNat → groupGood body k :=
              fun k hk => firstBad_eq_none_iff.mp hb k (Nat.zero_le k) (by omega)
            exact .inl ⟨_, hd, hl, by rintro _ _ ⟨⟩; exact ⟨hlen, hgood⟩, by simp⟩
          | some k =>
            obtain ⟨-, hk, hbad, hgood⟩ := firstBad_spec hb
            exact .inr (.inl ⟨k, .inr ⟨n, body, hd, hl, hlen, by omega, hbad, fun j => hgood j (Nat.zero_le j)⟩⟩)
        · exact .inr (.inr (.inl ⟨n, body, hd, hl, hlen⟩))

/-! ### The step of each class -/

/-- Where the request succeeds, its operation answers a result after the status OK. -/
theorem resultOf_of_succeeds {s : State} {bytes : List Byte} (hok : RequestSucceeds s.params bytes) :
    ∃ i result, decode bytes = some i ∧ resultOf s.params.nmax i = 0x00 :: result := by
  obtain ⟨i, hd, hl, hwords, hword⟩ := hok
  cases i with
  | build | checksum _ | validate _ _ _ | encodeWrite _ _ | encodeRead _ => exact ⟨_, _, hd, rfl⟩
  | decodeWord a b c => exact ⟨_, _, hd, if_pos (hword a b c rfl)⟩
  | decodeWords n body =>
    obtain ⟨h1, h2⟩ := legal_decodeWords_eq_true.mp hl
    obtain ⟨hlen, hgood⟩ := hwords n body rfl
    have hnone : firstBad body 0 n.toNat = none := firstBad_eq_none_iff.mpr (fun j _ hj => hgood j (by omega))
    exact ⟨_, _, hd, resultOf_decodeWords_of_good h1 h2 hlen hnone⟩

section classes
variable {s : State} {r : Request} (hf : InFlight s r)
include hf

theorem step_of_decode {i : Instr} (hd : decode r.bytes = some i) : step s = exec i s := by
  rw [step_of_inFlight hf, runRequest, hd]

theorem stepRejects_of_illegal (hi : RequestIllegal s.params r.bytes) : StepRejects s [0x03] := by
  obtain hd | ⟨i, hd, hl⟩ := hi
  · exact stepRejects_of_undecoded hf hd
  · rw [StepRejects, step_of_decode hf hd]
    obtain ⟨-, e⟩ | ⟨hl', -⟩ := exec_illegal_cases i s
    · exact exec_answers_and_keeps e
    · simp [hl] at hl'

theorem stepRejects_of_malformed (hm : RequestMalformed s.params r.bytes) : StepRejects s [0x02] := by
  obtain ⟨n, body, hd, hl, hlen⟩ := hm
  obtain ⟨h1, h2⟩ := legal_decodeWords_eq_true.mp hl
  rw [StepRejects, step_of_decode hf hd]
  exact decodeWordsReportsMalformedResponse s n body h1 h2 hlen

/-- CHECKSUM_FAILURE carries the index of the group, and the table is built when it is found. -/
theorem step_of_badGroup (h : TableOk s) {k : Nat} (hb : RequestHasBadGroup s.params r.bytes k) :
    ∃ t, step s = .next t ∧ Answered s t [0x01, BitVec.ofNat 8 k] ∧ TableBuilt s t := by
  obtain ⟨rfl, a, b, c, hd, hbad⟩ | ⟨n, body, hd, hl, hlen, hk, hbad, hgood⟩ := hb
  · rw [step_of_decode hf hd]
    have e := exec_decodeWord_eq h a b c
    rw [if_neg (show ¬ crcOf (wordOf a b) = c from hbad)] at e
    exact exec_answers_and_builds h e
  · obtain ⟨h1, h2⟩ := legal_decodeWords_eq_true.mp hl
    rw [step_of_decode hf hd]
    exact decodeWordsReportsFirstBadGroup s n body k h h1 h2 hlen hk hbad hgood

theorem step_of_succeeds (h : TableOk s) (hok : RequestSucceeds s.params r.bytes) :
    ∃ t result, step s = .next t ∧ Answered s t (0x00 :: result) := by
  obtain ⟨i, result, hd, hres⟩ := resultOf_of_succeeds hok
  obtain ⟨s1, hs1, e⟩ := exec_eq h i
  rw [step_of_decode hf hd, e, hres]
  exact ⟨_, result, rfl, answered_respond hs1 _⟩

/-! ### The status byte (R132) and the state an error leaves (R134) -/

/-- The step on a request in flight, by the class of the request. -/
theorem step_request_cases (h : TableOk s) :
    ∃ t, step s = .next t ∧
      ((RequestSucceeds s.params r.bytes ∧ ∃ result, Answered s t (0x00 :: result)) ∨
       (∃ k, RequestHasBadGroup s.params r.bytes k ∧ Answered s t [0x01, BitVec.ofNat 8 k] ∧ TableBuilt s t) ∨
       (RequestMalformed s.params r.bytes ∧ Answered s t [0x02] ∧ TableKept s t) ∨
       (RequestIllegal s.params r.bytes ∧ Answered s t [0x03] ∧ TableKept s t)) := by
  obtain hok | ⟨k, hb⟩ | hm | hi := request_cases s.params r.bytes
  · obtain ⟨t, result, e, ha⟩ := step_of_succeeds hf h hok
    exact ⟨t, e, .inl ⟨hok, result, ha⟩⟩
  · obtain ⟨t, e, ha⟩ := step_of_badGroup hf h hb
    exact ⟨t, e, .inr (.inl ⟨k, hb, ha⟩)⟩
  · obtain ⟨t, e, ha⟩ := stepRejects_of_malformed hf hm
    exact ⟨t, e, .inr (.inr (.inl ⟨hm, ha⟩))⟩
  · obtain ⟨t, e, ha⟩ := stepRejects_of_illegal hf hi
    exact ⟨t, e, .inr (.inr (.inr ⟨hi, ha⟩))⟩

theorem responses_of_answered {t : State} {b : List Byte} (ha : Answered s t b) :
    t.responses = s.responses ++ [{ answers := some r, bytes := b }] := by
  obtain ⟨-, -, hr⟩ := hf
  rw [ha.responses, hr]

end classes

/-- The delivered response determines the bytes of the answer. -/
theorem answered_bytes_unique {s t : State} {b b' : List Byte} {a : Option Request} (ha : Answered s t b)
    (hr : t.responses = s.responses ++ [{ answers := a, bytes := b' }]) : b' = b := by
  have e := List.append_cancel_left (hr.symm.trans ha.responses)
  exact congrArg Response.bytes (List.head_eq_of_cons_eq e)

/-- Settles O48: by the class of the request; the bytes of the response say which class it is. -/
theorem errorsWriteNothingButTheLazyBuild : Obligations.ErrorsWriteNothingButTheLazyBuild := by
  intro s t r bytes h hf hst hr
  obtain ⟨t', e, hclass⟩ := step_request_cases hf h
  obtain rfl := Host.Outcome.next.inj (e.symm.trans hst)
  obtain ⟨-, result, ha⟩ | ⟨k, -, ha, hbuilt⟩ | ⟨-, ha, hkept⟩ | ⟨-, ha, hkept⟩ := hclass <;>
    obtain rfl := answered_bytes_unique ha hr
  · exact ⟨ha, by simp, by simp⟩
  · exact ⟨ha, by simp, fun _ _ => hbuilt⟩
  · exact ⟨ha, fun _ => hkept, by simp⟩
  · exact ⟨ha, fun _ => hkept, by simp⟩

/-- A request's class fixes the status byte of the response that its step delivers. -/
theorem status_of_class {s t : State} {r : Request} {status : Byte} {rest : List Byte} (h : TableOk s)
    (hf : InFlight s r) (hst : step s = .next t)
    (hr : t.responses = s.responses ++ [{ answers := some r, bytes := status :: rest }]) :
    (RequestSucceeds s.params r.bytes → status = 0x00) ∧
    ((∃ k, RequestHasBadGroup s.params r.bytes k) → status = 0x01) ∧
    (RequestMalformed s.params r.bytes → status = 0x02) ∧
    (RequestIllegal s.params r.bytes → status = 0x03) := by
  have hstatus : ∀ {code info t'}, step s = .next t' → Answered s t' (code :: info) → status = code := by
    intro code info t' e ha
    obtain rfl := Host.Outcome.next.inj (e.symm.trans hst)
    exact List.head_eq_of_cons_eq (answered_bytes_unique ha hr)
  refine ⟨fun hok => ?_, fun ⟨k, hb⟩ => ?_, fun hm => ?_, fun hi => ?_⟩
  · obtain ⟨_, _, e, ha⟩ := step_of_succeeds hf h hok
    exact hstatus e ha
  · obtain ⟨_, e, ha, -⟩ := step_of_badGroup hf h hb
    exact hstatus e ha
  · obtain ⟨_, e, ha, -⟩ := stepRejects_of_malformed hf hm
    exact hstatus e ha
  · obtain ⟨_, e, ha, -⟩ := stepRejects_of_illegal hf hi
    exact hstatus e ha

/-- Settles O45: the classes leave no request out, and each fixes its own status byte. -/
theorem statusByteTellsFailureFromResult : Obligations.StatusByteTellsFailureFromResult := by
  intro s t r h hf hst
  obtain ⟨t', e, hclass⟩ := step_request_cases hf h
  obtain rfl := Host.Outcome.next.inj (e.symm.trans hst)
  obtain ⟨hok, result, ha⟩ | ⟨k, hb, ha, -⟩ | ⟨hm, ha, -⟩ | ⟨hi, ha, -⟩ := hclass <;>
    have hr := responses_of_answered hf ha <;>
    obtain ⟨h0, h1, h2, h3⟩ := status_of_class h hf hst hr
  · exact ⟨_, _, hr, ⟨fun _ => hok, h0⟩, ⟨by simp, h1⟩, ⟨by simp, h2⟩, ⟨by simp, h3⟩, .inl rfl⟩
  · exact ⟨_, _, hr, ⟨by simp, h0⟩, ⟨fun _ => ⟨k, hb⟩, h1⟩, ⟨by simp, h2⟩, ⟨by simp, h3⟩,
      .inr (.inl ⟨rfl, k, hb, rfl⟩)⟩
  · exact ⟨_, _, hr, ⟨by simp, h0⟩, ⟨by simp, h1⟩, ⟨fun _ => hm, h2⟩, ⟨by simp, h3⟩,
      .inr (.inr (.inl ⟨rfl, rfl⟩))⟩
  · exact ⟨_, _, hr, ⟨by simp, h0⟩, ⟨by simp, h1⟩, ⟨by simp, h2⟩, ⟨fun _ => hi, h3⟩,
      .inr (.inr (.inr ⟨rfl, rfl⟩))⟩

/-! ### The order of the errors (R133) -/

/-- A DECODE_WORDS request that is not of the wrong length carries as many bytes as its byte `L` says. -/
theorem length_of_not_wrongLength {n l : Byte} {body : List Byte} (h : ¬ WrongLength (0x07 :: n :: l :: body)) :
    body.length = l.toNat := by
  by_contra hne
  refine h ⟨_, _, rfl, .inr (.inr (.inr (.inr (.inr (.inr ⟨rfl, .inr ?_⟩)))))⟩
  change body.length + 3 ≠ 3 + l.toNat
  omega

theorem decode_decodeWords {n l : Byte} {body : List Byte} (h : body.length = l.toNat) :
    decode (0x07 :: n :: l :: body) = some (.decodeWords n body) := if_pos h

/-- Settles O47: each clause puts the request into its class, and the class has one kind of step. -/
theorem firstApplicableErrorIsReported : Obligations.FirstApplicableErrorIsReported := by
  intro s r h hf
  refine ⟨reservedRequestsAnswerIllegalOperation s r hf,
    fun _ => wrongLengthAnswersIllegalOperation s r hf, fun hw n l body hbytes => ?_, fun _ a b c hbytes hbad => ?_⟩
  · rw [hbytes] at hw
    have hlen := length_of_not_wrongLength hw
    have hd : decode r.bytes = some (.decodeWords n body) := hbytes ▸ decode_decodeWords hlen
    refine ⟨fun hn => ?_, fun h1 h2 hl => ?_, fun h1 h2 hl k hk hbad hgood => ?_⟩
    · exact stepRejects_of_illegal hf (.inr ⟨_, hd, legal_decodeWords_eq_false.mpr hn⟩)
    · have hl' : body.length ≠ 3 * n.toNat := by omega
      exact stepRejects_of_malformed hf ⟨n, body, hd, legal_decodeWords_eq_true.mpr ⟨h1, h2⟩, hl'⟩
    · have hl' : body.length = 3 * n.toNat := by omega
      have hclass : RequestHasBadGroup s.params r.bytes k :=
        .inr ⟨n, body, hd, legal_decodeWords_eq_true.mpr ⟨h1, h2⟩, hl', hk, hbad, hgood⟩
      obtain ⟨t, e, ha, -⟩ := step_of_badGroup hf h hclass
      exact ⟨t, e, ha⟩
  · have hclass : RequestHasBadGroup s.params r.bytes 0 := .inl ⟨rfl, a, b, c, hbytes ▸ rfl, hbad⟩
    obtain ⟨t, e, ha, -⟩ := step_of_badGroup hf h hclass
    exact ⟨t, e, ha⟩

end Sys2Proof.Machine
end

section
/-! The reset input (70_reset_and_hazards.md R150). -/

namespace Sys2Proof.Machine

/-- R24, R150: while the table is unbuilt, an operation delivers the same response whatever the table holds. -/
theorem exec_responses_of_unbuilt {s : State} (hv : s.tValid = false) (m : Memory) (i : Instr) :
    ∃ t1 t2, exec i s = .next t1 ∧ exec i { s with lut := m } = .next t2 ∧ t1.responses = t2.responses := by
  obtain ⟨-, hunread⟩ := tableStaysRightAndUnchanged
  exact hunread s i m hv

/-- Settles O21: the step is `assertReset`, which leaves the table unbuilt, so no response depends on what it holds. -/
theorem resetInputGivesResetValues : Obligations.ResetInputGivesResetValues := by
  intro s hreset
  have hunbuilt : (assertReset s).tValid = false := assertReset_tValid s
  exact ⟨assertReset s, step_of_reset hreset, hunbuilt, assertReset_busy s, assertReset_inFlight s, assertReset_held s,
    exec_responses_of_unbuilt hunbuilt⟩

end Sys2Proof.Machine
end

section
/-! The encoding (30_encoding.md R61 to R68): the decoder and the encoder are inverse to each other, and the decoder
refuses exactly the requests of R66 and R67. -/

namespace Sys2Proof

open Sys2Proof.Machine Sys2Proof.Safety

/-- Settles O2: by the instruction; the byte count of DECODE_WORDS is below 256, so its byte `L` carries it. -/
theorem decodeOfEncodeIsIdentity : Obligations.DecodeOfEncodeIsIdentity := by
  intro i hwf
  cases i with
  | build => rfl
  | checksum w => exact decode_checksum w
  | validate h l c => rfl
  | encodeWrite cmd data => exact decode_encodeWrite cmd data
  | encodeRead cmd => exact decode_encodeRead cmd
  | decodeWord a b c => rfl
  | decodeWords n r =>
    have hr : r.length ≤ 255 := of_decide_eq_true hwf
    have hcount : r.length = (BitVec.ofNat 8 r.length).toNat := by
      rw [BitVec.toNat_ofNat, Nat.mod_eq_of_lt (by omega)]
    exact decode_decodeWords hcount

/-- What the operands of an operation code decode to is encoded by the code and the operands (R62, R65). -/
theorem encode_of_decodeOperands {op : Byte} {operands : List Byte} {i : Instr}
    (h : decodeOperands op.toNat operands = some i) : encode i = op :: operands ∧ i.wf = true := by
  have hcode : ∀ code : Byte, op.toNat = code.toNat → code = op := fun _ e => (BitVec.eq_of_toNat_eq e).symm
  unfold decodeOperands at h
  split at h
  · next hop => obtain rfl := hcode 1 hop; cases h; exact ⟨rfl, rfl⟩
  · next hop => obtain rfl := hcode 2 hop; cases h; simp [encode, wordBytes, Instr.wf]
  · next hop => obtain rfl := hcode 3 hop; cases h; exact ⟨rfl, rfl⟩
  · next hop => obtain rfl := hcode 4 hop; cases h; simp [encode, wordBytes, Instr.wf]
  · next hop => obtain rfl := hcode 5 hop; cases h; simp [encode, wordBytes, Instr.wf]
  · next hop => obtain rfl := hcode 6 hop; cases h; exact ⟨rfl, rfl⟩
  · next n l r hop =>
    obtain rfl := hcode 7 hop
    split at h
    · next hlen =>
      cases h
      have hr : l.toNat ≤ 255 := by omega
      simp [encode, Instr.wf, hlen, hr]
    · cases h
  · cases h

/-- Settles O3: a request that decodes has an operation code, and its operands decode to the instruction. -/
theorem encodeOfDecodeIsIdentity : Obligations.EncodeOfDecodeIsIdentity := by
  intro bytes i h
  cases bytes with
  | nil => cases h
  | cons op operands => exact encode_of_decodeOperands h

/-- What fits its format is given a meaning (R62, R67). -/
theorem decode_of_fitsFormat {bytes : List Byte} (h : FitsFormat bytes) : ∃ i, decode bytes = some i := by
  obtain ⟨op, rest, f, rfl, hf, hlen⟩ := h
  unfold formatOf at hf
  split at hf <;> cases hf <;> rw [decode, ‹op.toNat = _›]
  · match rest, hlen with | [], _ => exact ⟨_, rfl⟩
  · match rest, hlen with | [_, _], _ => exact ⟨_, rfl⟩
  · match rest, hlen with | [_, _, _], _ => exact ⟨_, rfl⟩
  · match rest, hlen with | [_, _, _, _], _ => exact ⟨_, rfl⟩
  · match rest, hlen with | [_, _], _ => exact ⟨_, rfl⟩
  · match rest, hlen with | [_, _, _], _ => exact ⟨_, rfl⟩
  · match rest, hlen with
    | n :: l :: r, hlen =>
      have hr : r.length = l.toNat := by
        change r.length + 3 = 3 + l.toNat at hlen
        omega
      exact ⟨_, if_pos hr⟩

/-- What fits no format has a reserved operation code or none (R66), or its code's format has another length (R67). -/
theorem reserved_or_wrongLength_of_not_fitsFormat {bytes : List Byte} (h : ¬ FitsFormat bytes) :
    ReservedRequest bytes ∨ WrongLength bytes := by
  cases bytes with
  | nil => exact .inl (.inl rfl)
  | cons op rest =>
    have hlen (f : Format) (hf : formatOf op = some f) :
        (op :: rest).length ≠ formatLength f ((op :: rest).getD 2 0) := fun e => h ⟨op, rest, f, rfl, hf, e⟩
    by_cases hreserved : op.toNat = 0 ∨ 8 ≤ op.toNat
    · exact .inl (.inr ⟨op, rest, rfl, hreserved⟩)
    · have hop : op = 1 ∨ op = 2 ∨ op = 3 ∨ op = 4 ∨ op = 5 ∨ op = 6 ∨ op = 7 := by bv_omega
      refine .inr ⟨op, rest, rfl, ?_⟩
      obtain rfl | rfl | rfl | rfl | rfl | rfl | rfl := hop
      · exact .inl ⟨rfl, hlen .f0 rfl⟩
      · exact .inr (.inl ⟨rfl, hlen .f2 rfl⟩)
      · exact .inr (.inr (.inl ⟨rfl, hlen .f3 rfl⟩))
      · exact .inr (.inr (.inr (.inl ⟨rfl, hlen .f4 rfl⟩)))
      · exact .inr (.inr (.inr (.inr (.inl ⟨rfl, hlen .f2 rfl⟩))))
      · exact .inr (.inr (.inr (.inr (.inr (.inl ⟨rfl, hlen .f3 rfl⟩)))))
      · exact .inr (.inr (.inr (.inr (.inr (.inr ⟨rfl, .inr (hlen .fv rfl)⟩)))))

theorem not_fitsFormat_of_decode {bytes : List Byte} (h : decode bytes = none) : ¬ FitsFormat bytes := by
  intro hfit
  obtain ⟨i, hi⟩ := decode_of_fitsFormat hfit
  simp [h] at hi

/-- Settles O4: the decoder refuses exactly what fits no format, which is what is reserved or has the wrong length. -/
theorem decoderRefusesExactlyReservedAndWrongLength : Obligations.DecoderRefusesExactlyReservedAndWrongLength := by
  intro bytes
  refine ⟨fun h => reserved_or_wrongLength_of_not_fitsFormat (not_fitsFormat_of_decode h), ?_⟩
  rintro (h | h)
  · exact decode_eq_none_of_not_fitsFormat (not_fitsFormat_of_reserved h)
  · exact decode_eq_none_of_not_fitsFormat (not_fitsFormat_of_wrongLength h)

/-- Settles O1: the seven requests by evaluation of the decoder. -/
theorem specEncodingsDecode : Obligations.SpecEncodingsDecode := by
  unfold Obligations.SpecEncodingsDecode
  decide

end Sys2Proof
end

section
/-! What every step keeps: the block's invariant (10_state.md R24, R27; 20_memory.md R52), `NMAX` (00_scope.md R7), and
the history of responses as a function of the requests (20_memory.md R48). -/

namespace Sys2Proof.Machine

open Sys2Proof.Safety

/-! ### The parameters -/

/-- R7: no step changes `NMAX`. -/
theorem step_params {s t : State} (hst : step s = .next t) : t.params = s.params := by
  obtain ⟨-, e⟩ | ⟨r, -, b, s1, hs1, e⟩ | ⟨-, -, r, l1, l2, -, -, e⟩ | ⟨-, e⟩ := step_cases s <;>
    obtain rfl := Host.Outcome.next.inj (e.symm.trans hst)
  · exact assertReset_params s
  · exact (answered_respond hs1 b).params
  · exact accept_params r s
  · rfl

/-- Settles O20: by the cases of a step. -/
theorem parametersNeverChange : Obligations.ParametersNeverChange := fun _ _ hst => step_params hst

/-! ### The invariant -/

theorem blockInv_assertReset {s : State} (h : BlockInv s) : BlockInv (assertReset s) where
  memory := Memory.wf_nil
  table := tableOk_assertReset s
  whole := fun _ => rfl
  busy := rfl
  params := h.params

theorem blockInv_accept {s : State} (h : BlockInv s) (r : Request) : BlockInv (accept r s) where
  memory := h.memory
  table := tableOk_accept.mpr h.table
  whole := h.whole
  busy := rfl
  params := h.params

theorem blockInv_respond {s : State} (h : BlockInv s) (b : List Byte) : BlockInv (respond b s) where
  memory := h.memory
  table := tableOk_respond.mpr h.table
  whole := h.whole
  busy := rfl
  params := h.params

/-- The lazy build keeps the invariant: it writes every entry, in canonical form, and each one right. -/
theorem blockInv_ensureTable {s : State} (h : BlockInv s) : BlockInv (ensureTable s) where
  memory := by
    obtain ⟨-, e⟩ | ⟨-, e⟩ := ensureTable_cases s <;> rw [e]
    · exact h.memory
    · exact buildEntries_wf (Nat.le_refl _) h.memory
  table := tableOk_ensureTable h.table
  whole := fun hv => by simp at hv
  busy := by simpa using h.busy
  params := by simpa using h.params

theorem blockInv_of_step {s t : State} (h : BlockInv s) (hst : step s = .next t) : BlockInv t := by
  obtain ⟨-, e⟩ | ⟨r, -, b, s1, hs1, e⟩ | ⟨-, -, r, l1, l2, -, -, e⟩ | ⟨-, e⟩ := step_cases s <;>
    obtain rfl := Host.Outcome.next.inj (e.symm.trans hst)
  · exact blockInv_assertReset h
  · obtain rfl | rfl := hs1
    · exact blockInv_respond h b
    · exact blockInv_respond (blockInv_ensureTable h) b
  · exact blockInv_accept h r
  · exact h

/-- Settles O12: each case of a step, the reset, the response, the acceptance and the wait, keeps the invariant. -/
theorem stepKeepsInvariant : Obligations.StepKeepsInvariant := fun _ _ => blockInv_of_step

/-- Settles O11: the state after reset has no table and nothing in flight, and its `NMAX` is 6. -/
theorem resetStateMeetsInvariant : Obligations.ResetStateMeetsInvariant := by
  have hinv : BlockInv State.reset :=
    { memory := Memory.wf_nil, table := tableOk_of_unbuilt rfl, whole := fun _ => rfl, busy := rfl,
      params := by decide }
  have hhistory : HistoryOk State.reset := fun _ hd => absurd hd List.not_mem_nil
  exact ⟨hinv, hhistory, ⟨rfl, rfl, rfl⟩, rfl, rfl⟩

/-! ### The history -/

/-- What a step can do to the delivered responses: nothing, or one response to the request in flight, the one its bytes
determine. -/
theorem step_responses_cases {s t : State} (h : TableOk s) (hst : step s = .next t) :
    t.responses = s.responses ∨
    ∃ r, t.responses = s.responses ++ [{ answers := some r, bytes := responseOf s.params.nmax r.bytes }] := by
  obtain ⟨-, e⟩ | ⟨r, hf, -⟩ | ⟨-, -, r, l1, l2, -, -, e⟩ | ⟨-, e⟩ := step_cases s
  case inr.inl =>
    obtain ⟨t', e, hr⟩ := step_delivers_responseOf h hf
    obtain rfl := Host.Outcome.next.inj (e.symm.trans hst)
    exact .inr ⟨r, hr⟩
  all_goals obtain rfl := Host.Outcome.next.inj (e.symm.trans hst)
  · exact .inl (assertReset_responses s)
  · exact .inl (accept_responses r s)
  · exact .inl rfl

/-- Settles O13: the responses that were there stay, under the same `NMAX`, and the one a step adds is `responseOf`. -/
theorem deliveredResponsesAreFunctionsOfRequests : Obligations.DeliveredResponsesAreFunctionsOfRequests := by
  intro s t hinv hhistory hst d hd
  rw [step_params hst]
  obtain e | ⟨r, e⟩ := step_responses_cases hinv.table hst <;> rw [e] at hd
  · exact hhistory d hd
  · obtain hold | hnew := List.mem_append.mp hd
    · exact hhistory d hold
    · obtain rfl := List.mem_singleton.mp hnew
      exact ⟨r, rfl, rfl⟩

end Sys2Proof.Machine
end

section
/-! What an operation does besides its answer (20_memory.md R25, R47; 60_exceptions.md R131): its frame, its one write on
the table, the errors it can raise; and BUILD before another operation (40_crc8_engine.md R85, 70_reset_and_hazards.md
R156). -/

namespace Sys2Proof.Machine

open Sys2Proof.Safety

/-! ### The frame and the table -/

/-- Settles O16: an operation delivers one response, after the lazy build or without it. -/
theorem operationsChangeOnlyResponseAndTable : Obligations.OperationsChangeOnlyResponseAndTable := by
  intro i s
  obtain ⟨b, s1, hs1, e⟩ := exec_cases i s
  exact ⟨_, b, e, answered_respond hs1 b⟩

/-- Settles O15: the lazy build does nothing where there is a table, and makes every entry right where there is none. -/
theorem onlyTableWriteIsTheOneTimeBuild : Obligations.OnlyTableWriteIsTheOneTimeBuild := by
  intro i s t hst
  obtain ⟨b, s1, hs1, e⟩ := exec_cases i s
  obtain rfl := Host.Outcome.next.inj (e.symm.trans hst)
  obtain rfl | rfl := hs1
  · exact .inl (tableKept_respond s1 b)
  · obtain ⟨-, hbuild⟩ | ⟨hv, hbuild⟩ := ensureTable_cases s <;> rw [hbuild]
    · exact .inl (tableKept_respond s b)
    · exact .inr ⟨hv, rfl, lutRead_buildTable s⟩

/-! ### BUILD before an operation -/

/-- Settles O27: the table that BUILD leaves is built, so the next BUILD finds nothing to do; and every built entry is
`crc8_byte` of its index, whatever block it stands in. -/
theorem buildIsDeterministicAndIdempotent : Obligations.BuildIsDeterministicAndIdempotent := by
  constructor
  · intro s t u ht hu
    obtain rfl := Host.Outcome.next.inj ((exec_build_eq s).symm.trans ht)
    obtain rfl := Host.Outcome.next.inj ((exec_build_eq _).symm.trans hu)
    have hbuilt : (respond [0x00] (ensureTable s)).tValid = true := ensureTable_tValid s
    rw [ensureTable_of_valid hbuilt]
    exact tableKept_respond _ _
  · intro s1 s2 t1 t2 hv1 hv2 ht1 ht2 i
    obtain rfl := Host.Outcome.next.inj ((exec_build_eq s1).symm.trans ht1)
    obtain rfl := Host.Outcome.next.inj ((exec_build_eq s2).symm.trans ht2)
    rw [respond_lutRead, respond_lutRead, lutRead_ensureTable (tableOk_of_unbuilt hv1),
      lutRead_ensureTable (tableOk_of_unbuilt hv2)]

/-- Settles O28: BUILD leaves a right table and the same `NMAX`, and with these the response depends on the operands
alone. -/
theorem startupBuildChangesNoResponse : Obligations.StartupBuildChangesNoResponse := by
  intro s i h
  have hbuilt : TableOk (respond [0x00] (ensureTable s)) := tableOk_ensureTable h
  obtain ⟨t1, e1, hr1⟩ := exec_responses h i
  obtain ⟨t3, e3, hr3⟩ := exec_responses hbuilt i
  rw [respond_params, ensureTable_params] at hr3
  exact ⟨t1, _, t3, resultOf s.params.nmax i, e1, exec_build_eq s, e3, by simp [hr1], by simp [hr3]⟩

/-! ### The errors of each operation (R131) -/

/-- Settles O46: the answers of each operation, whatever the table holds. -/
theorem errorsAreRaisedByTheirOperations : Obligations.ErrorsAreRaisedByTheirOperations := by
  intro i s t hst
  have hanswer {b : List Byte} {s1 : State} (hs1 : s1 = s ∨ s1 = ensureTable s)
      (e : exec i s = .next (respond b s1)) : Answered s t b := by
    obtain rfl := Host.Outcome.next.inj (e.symm.trans hst)
    exact answered_respond hs1 b
  cases i with
  | build | checksum _ | validate _ _ _ | encodeWrite _ _ => exact ⟨_, hanswer (.inr rfl) rfl, _, rfl⟩
  | encodeRead _ => exact ⟨_, hanswer (.inl rfl) rfl, _, rfl⟩
  | decodeWord a b c =>
    obtain e | e := exec_decodeWord_cases a b c s
    · exact ⟨_, hanswer (.inr rfl) e, .inl ⟨_, rfl⟩⟩
    · exact ⟨_, hanswer (.inr rfl) e, .inr rfl⟩
  | decodeWords n r =>
    obtain ⟨-, e⟩ | ⟨-, -, e⟩ | ⟨-, -, s1, hs1, ⟨out, e⟩ | ⟨k, e⟩⟩ := exec_decodeWords_cases n r s
    · exact ⟨_, hanswer (.inl rfl) e, .inr (.inr (.inr rfl))⟩
    · exact ⟨_, hanswer (.inl rfl) e, .inr (.inr (.inl rfl))⟩
    · exact ⟨_, hanswer hs1 e, .inl ⟨_, rfl⟩⟩
    · exact ⟨_, hanswer hs1 e, .inr (.inl ⟨k, rfl⟩)⟩

end Sys2Proof.Machine
end

section
/-! The request port (30_encoding.md R60) and runs (70_reset_and_hazards.md R151, R159, R164; 60_exceptions.md R135): one
request is accepted and executed in two steps, and every request presented is answered. -/

namespace Sys2Proof.Machine

open Sys2Proof.Safety

/-! ### One step -/

/-- Settles O5: the request in flight decodes to the operation that runs. -/
theorem stepExecutesDecodedInstruction : Obligations.StepExecutesDecodedInstruction :=
  fun _ _ _ hf hd => step_of_decode hf hd

/-- Settles O7: the port finds nothing to accept. -/
theorem idleBlockWaitsUnchanged : Obligations.IdleBlockWaitsUnchanged := by
  rintro s ⟨hreset, hbusy, -⟩ hheld
  rw [step_of_idle hreset hbusy, acceptNext, nextRequest_none hheld]

/-- A request in flight is answered in one step, whatever the table holds. -/
theorem step_answers {s : State} {r : Request} (hf : InFlight s r) : ∃ t b, step s = .next t ∧ Answered s t b := by
  obtain ⟨b, s1, hs1, e⟩ := runRequest_cases r s
  exact ⟨_, b, (step_of_inFlight hf).trans e, answered_respond hs1 b⟩

/-- Settles O8: every case of a step is a next state, and the step on a request in flight is its answer. -/
theorem everyOperationEnds : Obligations.EveryOperationEnds := by
  constructor
  · intro s
    obtain ⟨-, e⟩ | ⟨r, -, b, s1, -, e⟩ | ⟨-, -, r, l1, l2, -, -, e⟩ | ⟨-, e⟩ := step_cases s <;> exact ⟨_, e⟩
  · intro s r hf
    obtain ⟨t, b, e, ha⟩ := step_answers hf
    exact ⟨t, b, e, responses_of_answered hf ha, ha.busy, ha.inFlight⟩

theorem inFlight_present {s : State} {r : Request} (hf : InFlight s r) (q : Request) : InFlight (present q s) r := hf

/-- Settles O6: an idle port accepts the oldest request of a requester; one presented during an operation only joins
the held requests, so the step is that of the request in flight. -/
theorem portAcceptsExecutesAndHolds : Obligations.PortAcceptsExecutesAndHolds := by
  constructor
  · rintro s ⟨hreset, hbusy, -⟩ hne
    obtain ⟨r, before, after, hnext, hheld, hfirst⟩ := nextRequest_some hne
    have hst : step s = .next (accept r s) := by rw [step_of_idle hreset hbusy, acceptNext, hnext]
    have hleft : (accept r s).held = before ++ after := by rw [accept_held, hheld, erase_split hfirst]
    exact ⟨_, r, before, after, hst, hheld, hleft, hfirst, rfl, rfl, rfl, rfl, rfl, accept_lutRead r s⟩
  · intro s r q hf
    have hf' := inFlight_present hf q
    obtain ⟨t, b, e, ha⟩ := step_answers hf'
    exact ⟨hf', rfl, fun _ hd => step_of_decode hf' hd, t, b, e, responses_of_answered hf' ha, ha.busy, ha.inFlight,
      ha.held⟩

/-! ### Two steps: acceptance and execution -/

/-- R48: where the table is right, the answer to the request in flight is the one its bytes determine. -/
theorem step_answers_responseOf {s : State} {r : Request} (h : TableOk s) (hf : InFlight s r) :
    ∃ t, step s = .next t ∧ Answered s t (responseOf s.params.nmax r.bytes) := by
  obtain ⟨s1, hs1, e⟩ := runRequest_eq h r
  exact ⟨_, (step_of_inFlight hf).trans e, answered_respond hs1 _⟩

/-- A free block serves the oldest request of the one requester that waits: it accepts it, then answers it. -/
theorem serves_oldest {s : State} {r : Request} {rs : List Request} (h : TableOk s) (hreset : s.resetIn = false)
    (hbusy : s.busy = false) (hheld : s.held = r :: rs) (hq : ∀ q ∈ rs, q.requester = r.requester) :
    ∃ t, step s = .next (accept r s) ∧ step (accept r s) = .next t ∧
      Answered (accept r s) t (responseOf s.params.nmax r.bytes) := by
  have hst : step s = .next (accept r s) := by
    rw [step_of_idle hreset hbusy, acceptNext, nextRequest_single hheld hq]
  have hf : InFlight (accept r s) r := ⟨hreset, rfl, rfl⟩
  obtain ⟨t, e, ha⟩ := step_answers_responseOf (tableOk_accept.mpr h) hf
  exact ⟨t, hst, e, ha⟩

/-- A request presented to a free block with an empty port is answered two steps later, as its bytes determine. -/
theorem serves_presented {s : State} (h : TableOk s) (hreset : s.resetIn = false) (hbusy : s.busy = false)
    (hheld : s.held = []) (q : Request) :
    ∃ t1 t2, step (present q s) = .next t1 ∧ step t1 = .next t2 ∧
      t2.responses = s.responses ++ [{ answers := some q, bytes := responseOf s.params.nmax q.bytes }] := by
  have hone : (present q s).held = [q] := by rw [present_held, hheld, List.nil_append]
  have hpresent : TableOk (present q s) := h
  obtain ⟨t, e1, e2, ha⟩ := serves_oldest hpresent hreset hbusy hone (by simp)
  exact ⟨_, t, e1, e2, ha.responses⟩

/-- Settles O49: the answer leaves the block free with its table right, and the port is empty. -/
theorem nextRequestAfterAnyResponseIsServed : Obligations.NextRequestAfterAnyResponseIsServed := by
  intro s r q h hf hheld
  obtain ⟨t, b, e, ha⟩ := step_answers hf
  obtain ⟨hreset, -, -⟩ := hf
  obtain ⟨t1, t2, e1, e2, hr⟩ := serves_presented (step_keeps_tableOk h e) (ha.resetIn.trans hreset) ha.busy
    (ha.held.trans hheld) q
  rw [ha.params] at hr
  exact ⟨t, t1, t2, e, ha.busy, e1, e2, hr⟩

/-- Settles O22: reset leaves a free block with an empty port and the same `NMAX`, which answers the request presented
again with the bytes that the abandoned operation would have answered. -/
theorem resetAbandonsRequestInFlight : Obligations.ResetAbandonsRequestInFlight := by
  intro s r h hf
  obtain ⟨t1, e1, hr1⟩ := step_delivers_responseOf h hf
  obtain ⟨t2, t3, e2, e3, hr3⟩ := serves_presented (tableOk_assertReset (raiseReset s)) rfl rfl rfl r
  exact ⟨_, step_of_reset (raiseReset_resetIn s), rfl, rfl, rfl, rfl, rfl, _, t1, t2, t3, e1, hr1, e2, e3, hr3⟩

/-! ### A run on a sequence of requests -/

theorem run_succ_of_step {s t : State} (h : step s = .next t) (k : Nat) :
    Host.Core.run Sys2Proof.core (k + 1) s = Host.Core.run Sys2Proof.core k t := by
  have hcore : Sys2Proof.core.step s = .next t := h
  simp only [Host.Core.run, hcore]

/-- Settles O19: by induction on the held requests; two steps serve the oldest and leave the others to the rest of the
run, in a state that is idle again, with the invariant. -/
theorem runDeliversEveryResponseInOrder : Obligations.RunDeliversEveryResponseInOrder := by
  intro s q hinv hidle hq
  generalize hheld : s.held = held
  rw [hheld] at hq
  induction held generalizing s with
  | nil => exact ⟨s, rfl, by simp, hheld, hidle, hinv⟩
  | cons r rs ih =>
    obtain ⟨hreset, hbusy, -⟩ := hidle
    obtain ⟨hr, hrs⟩ := List.forall_mem_cons.mp hq
    obtain ⟨t, e1, e2, ha⟩ :=
      serves_oldest hinv.table hreset hbusy hheld (fun p hp => (hrs p hp).trans hr.symm)
    have hleft : t.held = rs := by rw [ha.held, accept_held, hheld, List.erase_cons_head]
    have hfree : Idle t := ⟨ha.resetIn.trans hreset, ha.busy, ha.inFlight⟩
    have hkeep : BlockInv t := blockInv_of_step (blockInv_of_step hinv e1) e2
    obtain ⟨u, hrun, hresponses, hend⟩ := ih t hkeep hfree hrs hleft
    refine ⟨u, ?_, ?_, hend⟩
    · rw [List.length_cons, Nat.mul_succ, run_succ_of_step e1, run_succ_of_step e2, hrun]
    · rw [hresponses, ha.responses, ha.params]
      simp

end Sys2Proof.Machine
end

section
/-! The checksum as algebra (40_crc8_engine.md R80, R83): a table entry is a polynomial remainder, `crc8_byte` is a
permutation, and the checksums are evenly spread over the words. -/

namespace Sys2Proof.Machine

open Sys2Proof.Safety

/-! ### The remainder modulo 0x131 (R80) -/

theorem foldl_xor_map (f g : Nat → Word) (l : List Nat) (a b : Word) :
    (l.map (fun k => f k ^^^ g k)).foldl (· ^^^ ·) (a ^^^ b) =
      (l.map f).foldl (· ^^^ ·) a ^^^ (l.map g).foldl (· ^^^ ·) b := by
  induction l generalizing a b with
  | nil => rfl
  | cons k l ih =>
    have hswap : (a ^^^ b) ^^^ (f k ^^^ g k) = (a ^^^ f k) ^^^ (b ^^^ g k) := by ac_rfl
    simp only [List.map_cons, List.foldl_cons, hswap, ih]

/-- Multiplication over GF(2) is linear in its first factor. -/
theorem polyMul_xor (q q' p : Word) : polyMul (q ^^^ q') p = polyMul q p ^^^ polyMul q' p := by
  have hterm (k : Nat) : (if (q ^^^ q').getLsbD k then p <<< k else 0) =
      (if q.getLsbD k then p <<< k else 0) ^^^ (if q'.getLsbD k then p <<< k else 0) := by
    rw [BitVec.getLsbD_xor]
    cases q.getLsbD k <;> cases q'.getLsbD k <;> simp
  simp only [polyMul, hterm]
  exact foldl_xor_map _ _ _ 0 0

theorem polyMul_one_shiftLeft : ∀ n < 8, polyMul (1 <<< n) 0x0131 = (0x0131 : Word) <<< n := by decide +kernel

theorem toNat_one_shiftLeft_lt : ∀ n < 8, ((1 : Word) <<< n).toNat < 2 ^ (n + 1) := by decide

/-- One bit-shift without the truncation to a byte: the polynomial is subtracted where bit 7 leaves the byte. -/
theorem crcShift_setWidth : ∀ c : Byte,
    c.setWidth 16 <<< 1 = (if c.getLsbD 7 then 0x0131 else 0) ^^^ (crcShift c).setWidth 16 := by decide +kernel

/-- Long division: each bit-shift settles one bit of the quotient, from the top. -/
theorem crcShifts_remainder {n : Nat} (hn : n ≤ 8) (c : Byte) :
    ∃ q : Word, q.toNat < 2 ^ n ∧ polyMul q 0x0131 ^^^ (crcShifts n c).setWidth 16 = c.setWidth 16 <<< n := by
  induction n generalizing c with
  | zero =>
    have hzero : polyMul 0 0x0131 = 0 := by decide
    exact ⟨0, Nat.one_pos, by rw [hzero, crcShifts]; simp⟩
  | succ n ih =>
    obtain ⟨q, hq, hdiv⟩ := ih (by omega) (crcShift c)
    have hshift : c.setWidth 16 <<< (n + 1) =
        (if c.getLsbD 7 then 0x0131 else 0 : Word) <<< n ^^^ (crcShift c).setWidth 16 <<< n := by
      rw [Nat.add_comm, BitVec.shiftLeft_add, crcShift_setWidth, BitVec.shiftLeft_xor_distrib]
    rw [hshift, crcShifts, ← hdiv]
    cases c.getLsbD 7 with
    | false => exact ⟨q, by omega, by simp⟩
    | true =>
      refine ⟨(1 <<< n) ^^^ q, ?_, ?_⟩
      · rw [BitVec.toNat_xor]
        exact Nat.xor_lt_two_pow (toNat_one_shiftLeft_lt n (by omega)) (by omega)
      · rw [polyMul_xor, polyMul_one_shiftLeft n (by omega), BitVec.xor_assoc, if_pos rfl]

/-- Settles O24: `crc8_byte` is the remainder of eight bit-shifts, whose quotient has eight bits. -/
theorem tableEntryIsPolynomialRemainder : Obligations.TableEntryIsPolynomialRemainder :=
  fun i => crcShifts_remainder (Nat.le_refl 8) i

/-! ### The permutation (R83) -/

/-- The polynomial's last bit keeps the bit that leaves the byte, so a bit-shift loses nothing. -/
theorem crcShift_eq_zero : ∀ c : Byte, crcShift c = 0 → c = 0 := by decide +kernel

theorem crcShift_injective : Function.Injective crcShift := by
  intro c d h
  have hzero : crcShift (c ^^^ d) = 0 := by simp [crcShift_xor, h]
  exact BitVec.xor_eq_zero_iff.mp (crcShift_eq_zero _ hzero)

theorem crcShifts_injective (n : Nat) : Function.Injective (crcShifts n) := by
  induction n with
  | zero => exact Function.injective_id
  | succ n ih => exact ih.comp crcShift_injective

/-- R83: `crc8_byte` is a permutation. -/
theorem crc8Byte_bijective : Function.Bijective crc8Byte :=
  Finite.injective_iff_bijective.mp (crcShifts_injective 8)

theorem crcOf_wordOf (h l : Byte) : crcOf (wordOf h l) = crc8Byte (crc8Byte (0xFF ^^^ h) ^^^ l) := by simp [crcOf]

/-- R83: for a fixed high byte, the checksum is a bijection of the low byte. -/
theorem crcOf_wordOf_bijective (h : Byte) : Function.Bijective (fun l : Byte => crcOf (wordOf h l)) := by
  have hxor : Function.Bijective (fun l : Byte => crc8Byte (0xFF ^^^ h) ^^^ l) :=
    Finite.injective_iff_bijective.mp fun _ _ e => (BitVec.xor_right_inj _).mp e
  simp only [crcOf_wordOf]
  exact crc8Byte_bijective.comp hxor

/-! ### The number of words of a checksum (R83) -/

/-- Two words with the same high byte and the same checksum are one word. -/
theorem eq_of_hi_of_crcOf {w w' : Word} (hhi : hi w = hi w') (hcrc : crcOf w = crcOf w') : w = w' := by
  have hcrc' : crcOf (wordOf (hi w) (lo w)) = crcOf (wordOf (hi w) (lo w')) := by
    rw [wordOf_hi_lo, hhi, wordOf_hi_lo, hcrc]
  have hlo : lo w = lo w' := (crcOf_wordOf_bijective (hi w)).injective hcrc'
  rw [← wordOf_hi_lo w, hhi, hlo, wordOf_hi_lo]

/-- Each checksum has one word for each high byte. -/
theorem card_words_of_crc (c : Byte) :
    ((Finset.range 65536).filter (fun w => crcOf (BitVec.ofNat 16 w) = c)).card = 256 := by
  have hbytes : (Finset.univ : Finset Byte).card = 256 := by simp [Finset.card_univ, ← FinEnum.card_eq_fintypeCard]
  rw [← hbytes]
  refine Finset.card_bij (fun w _ => hi (BitVec.ofNat 16 w)) (fun _ _ => Finset.mem_univ _)
    (fun w hw w' hw' e => ?_) (fun h _ => ?_)
  · obtain ⟨hlt, hc⟩ := Finset.mem_filter.mp hw
    obtain ⟨hlt', hc'⟩ := Finset.mem_filter.mp hw'
    have hword := congrArg BitVec.toNat (eq_of_hi_of_crcOf e (hc.trans hc'.symm))
    rwa [BitVec.toNat_ofNat, BitVec.toNat_ofNat, Nat.mod_eq_of_lt (Finset.mem_range.mp hlt),
      Nat.mod_eq_of_lt (Finset.mem_range.mp hlt')] at hword
  · obtain ⟨l, hl⟩ := (crcOf_wordOf_bijective h).surjective c
    have hword : BitVec.ofNat 16 (wordOf h l).toNat = wordOf h l := by simp
    refine ⟨(wordOf h l).toNat, Finset.mem_filter.mpr ⟨Finset.mem_range.mpr (wordOf h l).isLt, ?_⟩, ?_⟩
    · rw [hword]
      exact hl
    · rw [hword, hi_wordOf]

/-- Settles O25: the bijections above; the words of a checksum are counted by their high bytes. -/
theorem checksumIsBalanced : Obligations.ChecksumIsBalanced := by
  refine ⟨crcOf_zero, by decide +kernel, by decide +kernel, crc8Byte_bijective, crcOf_wordOf_bijective, fun c => ?_⟩
  have hcount := Nat.count_eq_card_filter_range (fun w => crcOf (BitVec.ofNat 16 w) = c) 65536
  rw [card_words_of_crc, Nat.count, List.countP_eq_length_filter] at hcount
  exact hcount

end Sys2Proof.Machine
end

section
/-! Error detection (40_crc8_engine.md R89; 41_frame_codec.md R107, R115): a group is accepted with its own checksum byte
alone, every error of one or two bits is found, and the operations agree on which groups are good. -/

namespace Sys2Proof.Machine

open Sys2Proof.Safety

/-! ### The one checksum byte that is accepted -/

/-- What an operation that responds after the lazy build leaves. -/
theorem exec_answers {s : State} {i : Instr} {b : List Byte} (e : exec i s = .next (respond b (ensureTable s))) :
    ∃ t, exec i s = .next t ∧ Answered s t b :=
  ⟨_, e, answered_respond (.inr rfl) b⟩

section judged
variable {s : State} (hs : TableOk s) {h l c : Byte}
include hs

theorem validate_of_eq (hc : crcOf (wordOf h l) = c) :
    ∃ t, exec (.validate h l c) s = .next t ∧ Answered s t [0x00, 0x01] := by
  have e := exec_validate_eq hs h l c
  rw [if_pos hc] at e
  exact exec_answers e

theorem validate_of_ne (hc : crcOf (wordOf h l) ≠ c) :
    ∃ t, exec (.validate h l c) s = .next t ∧ Answered s t [0x00, 0x00] := by
  have e := exec_validate_eq hs h l c
  rw [if_neg hc] at e
  exact exec_answers e

theorem decodeWord_of_eq (hc : crcOf (wordOf h l) = c) :
    ∃ t, exec (.decodeWord h l c) s = .next t ∧ Answered s t [0x00, h, l] := by
  have e := exec_decodeWord_eq hs h l c
  rw [if_pos hc] at e
  exact exec_answers e

theorem decodeWord_of_ne (hc : crcOf (wordOf h l) ≠ c) :
    ∃ t, exec (.decodeWord h l c) s = .next t ∧ Answered s t [0x01, 0x00] := by
  have e := exec_decodeWord_eq hs h l c
  rw [if_neg hc] at e
  exact exec_answers e

end judged

/-- Settles O31: CHECKSUM delivers `crcOf` of the word and leaves a right table; VALIDATE compares with `crcOf`. -/
theorem validateAcceptsExactlyTheChecksum : Obligations.ValidateAcceptsExactlyTheChecksum := by
  intro s w h
  have hzero : crcOf (wordOf 0x00 0x00) ≠ 0x00 := by decide +kernel
  refine ⟨⟨_, crcOf w, exec_checksum_eq h w, answered_respond (.inr rfl) _, tableOk_ensureTable h,
    fun u hu => ⟨validate_of_eq hu (by rw [wordOf_hi_lo]), fun d hd => validate_of_ne hu ?_⟩⟩,
    validate_of_ne h hzero⟩
  rw [wordOf_hi_lo]
  exact hd.symm

/-- Settles O38: ENCODE_WRITE delivers `crcOf` of the data word and leaves a right table; DECODE_WORD compares with
`crcOf`. -/
theorem writeFrameDataDecodesToItself : Obligations.WriteFrameDataDecodesToItself := by
  intro s cmd data h
  refine ⟨_, crcOf data, exec_encodeWrite_eq h cmd data, answered_respond (.inr rfl) _, tableOk_ensureTable h,
    fun u hu => ⟨decodeWord_of_eq hu (by rw [wordOf_hi_lo]), fun d hd => decodeWord_of_ne hu ?_⟩⟩
  rw [wordOf_hi_lo]
  exact hd.symm

/-! ### Bit errors (R89) -/

/-- What an error pattern of a group adds to the difference of its checksum and its checksum byte. -/
def syndrome (e : BitVec 24) : Byte :=
  crc8Byte (crc8Byte (e.extractLsb' 16 8) ^^^ e.extractLsb' 8 8) ^^^ e.extractLsb' 0 8

/-- The syndrome of two errors together is the XOR of their syndromes. -/
theorem syndrome_xor (e e' : BitVec 24) : syndrome (e ^^^ e') = syndrome e ^^^ syndrome e' := by
  simp only [syndrome, BitVec.extractLsb'_xor, crc8Byte_xor]
  ac_rfl

/-- The three bytes of a group are found in its 24 bits. -/
theorem groupBits_bytes (h l c : Byte) :
    (groupBits h l c).extractLsb' 16 8 = h ∧ (groupBits h l c).extractLsb' 8 8 = l ∧
      (groupBits h l c).extractLsb' 0 8 = c := by
  refine ⟨?_, ?_, BitVec.extractLsb'_append_eq_right⟩
  · exact (BitVec.extractLsb'_append_eq_of_le (by decide)).trans BitVec.extractLsb'_append_eq_left
  · exact (BitVec.extractLsb'_append_eq_of_le (by decide)).trans BitVec.extractLsb'_append_eq_right

theorem validateCorrupted_eq (w : Word) (e : BitVec 24) :
    validateCorrupted w e = .validate (hi w ^^^ e.extractLsb' 16 8) (lo w ^^^ e.extractLsb' 8 8)
      (crcOf w ^^^ e.extractLsb' 0 8) := by
  obtain ⟨hhi, hlo, hcrc⟩ := groupBits_bytes (hi w) (lo w) (crcOf w)
  simp only [validateCorrupted, BitVec.extractLsb'_xor, hhi, hlo, hcrc]

/-- The checksum is linear up to its initial value: an error of the word's bytes adds its own table values. -/
theorem crcOf_corrupted (w : Word) (a b : Byte) :
    crcOf (wordOf (hi w ^^^ a) (lo w ^^^ b)) = crcOf w ^^^ crc8Byte (crc8Byte a ^^^ b) := by
  have hfirst : crc8Byte (0xFF ^^^ (hi w ^^^ a)) = crc8Byte (0xFF ^^^ hi w) ^^^ crc8Byte a := by
    rw [← BitVec.xor_assoc, crc8Byte_xor]
  rw [crcOf, crcOf, hi_wordOf, lo_wordOf, ← crc8Byte_xor, hfirst]
  congr 1
  ac_rfl

/-- An error whose syndrome is not zero is found, whatever the word. -/
theorem validateCorrupted_of_syndrome {s : State} (h : TableOk s) (w : Word) {e : BitVec 24} (he : syndrome e ≠ 0) :
    ∃ t, exec (validateCorrupted w e) s = .next t ∧ Answered s t [0x00, 0x00] := by
  rw [validateCorrupted_eq]
  refine validate_of_ne h fun hc => he ?_
  rw [crcOf_corrupted, BitVec.xor_right_inj] at hc
  exact BitVec.xor_eq_zero_iff.mpr hc

theorem syndrome_bitError_ne_zero : ∀ k < 24, syndrome (bitError k) ≠ 0 := by decide +kernel

theorem syndrome_bitError_injective : ∀ j < 24, ∀ k < 24, syndrome (bitError j) = syndrome (bitError k) → j = k := by
  decide +kernel

/-- Settles O32: no single bit has the syndrome zero. -/
theorem singleBitCorruptionIsDetected : Obligations.SingleBitCorruptionIsDetected :=
  fun _ w k h hk => validateCorrupted_of_syndrome h w (syndrome_bitError_ne_zero k hk)

/-- Settles O33: two bits have the syndrome zero together only where their syndromes are equal. -/
theorem twoBitCorruptionIsDetected : Obligations.TwoBitCorruptionIsDetected := by
  intro s w j k h hj hk hne
  refine validateCorrupted_of_syndrome h w fun hzero => hne ?_
  rw [syndrome_xor] at hzero
  exact syndrome_bitError_injective j hj k hk (BitVec.xor_eq_zero_iff.mp hzero)

/-! ### One group and many (R115) -/

/-- The two answers of DECODE_WORD tell whether its group is good. -/
theorem groupGood_iff_of_decodeWord {s t : State} {r : List Byte} {k : Nat} {b : List Byte} (h : TableOk s)
    (e : exec (.decodeWord (groupAt r k).1 (groupAt r k).2.1 (groupAt r k).2.2) s = .next t) (ha : Answered s t b) :
    groupGood r k ↔ b ≠ [0x01, 0x00] := by
  by_cases hg : groupGood r k
  · obtain ⟨t', e', ha'⟩ := decodeWord_of_eq h hg
    obtain rfl := Host.Outcome.next.inj (e'.symm.trans e)
    simp [hg, answered_bytes_unique ha' ha.responses]
  · obtain ⟨t', e', ha'⟩ := decodeWord_of_ne h hg
    obtain rfl := Host.Outcome.next.inj (e'.symm.trans e)
    simp [hg, answered_bytes_unique ha' ha.responses]

/-- Settles O43: DECODE_WORD tells which groups are good, and DECODE_WORDS answers by the first that is not. -/
theorem decodeWordsAgreesWithDecodeWordPerGroup : Obligations.DecodeWordsAgreesWithDecodeWordPerGroup := by
  intro s n r h h1 h2 hlen good bad
  have hgood {k : Nat} (hk : good k) : groupGood r k := by
    obtain ⟨t, e, ha⟩ := hk
    exact (groupGood_iff_of_decodeWord h e ha).mpr (by simp)
  have hbad {k : Nat} (hk : bad k) : ¬ groupGood r k := by
    obtain ⟨t, e, ha⟩ := hk
    simp [groupGood_iff_of_decodeWord h e ha]
  constructor
  · intro hall
    have hnone : firstBad r 0 n.toNat = none := firstBad_eq_none_iff.mpr fun j _ hj => hgood (hall j (by omega))
    have e := exec_decodeWords_of_fits h1 h2 hlen h
    rw [resultOf_decodeWords_of_good h1 h2 hlen hnone] at e
    exact exec_answers e
  · intro k hk hkbad hbelow
    obtain ⟨t, e, ha, -⟩ :=
      decodeWordsReportsFirstBadGroup s n r k h h1 h2 hlen hk (hbad hkbad) fun j hj => hgood (hbelow j hj)
    exact ⟨t, e, ha⟩

end Sys2Proof.Machine
end
